-- ==== Sys2Proof/Word.lean ====
section
/-! DEFINITION. The word types of the machine (00_scope.md R7, R8): every value is unsigned. -/

namespace Sys2Proof

/-- Content of any storage cell: a memory cell, a register, a stack entry (00_scope.md R8). -/
abbrev Cell16 := BitVec 16

/-- The source's logical Word, 0..32767 (00_scope.md R8). -/
abbrev Value15 := BitVec 15

/-- A program-counter value; 17 bits hold 0..65536 (10_state.md R25, log 2). -/
abbrev Pc := BitVec 17

end Sys2Proof
end

