-- ==== Sys2Proof/Config.lean ====
section
/-! DEFINITION. The parameters of the machine that a definition names (00_scope.md R6) and its one free value. -/

namespace Sys2Proof

/-- What the input collaborator answers to one request (45_system_io.md R161): a character code in
0..32767, or Fail, which includes the end of the input stream. -/
inductive InAnswer where
  | char (c : Value15)
  | fail
  deriving DecidableEq, Repr, Inhabited

namespace Config

/-- MODULUS: arithmetic is modulo 32768 (00_scope.md R6, 42_alu.md R110). -/
@[simp] abbrev modulus : Nat := 32768

/-- REG_BASE: the first raw argument value that denotes a register (00_scope.md R6). -/
@[simp] abbrev regBase : Nat := 32768

/-- MAX_ARITY (00_scope.md R6). -/
@[simp] abbrev maxArity : Nat := 3

/-- MEM_ADDR_MAX (00_scope.md R6). -/
@[simp] abbrev memAddrMax : Nat := 65535

/-- MEM_MAX_EXTENT (00_scope.md R6). -/
@[simp] abbrev memMaxExtent : Nat := 65536

/-- FREE VALUE (DESIGN CHOICE, log 3): what the input collaborator answers to the request made after
`n` characters have been taken, where State holds no pending answer. The collaborator is an oracle,
"a sequence of answers not known in advance" (45_system_io.md R161), so the constant has no body and
nothing can be proved about its values. -/
opaque inputAnswer : Nat → InAnswer

end Config

end Sys2Proof
end

