-- ==== Sys2Proof/Syntax.lean ====
section
/-! DEFINITION. Instructions as syntax: arguments, the 22 opcodes (30_encoding.md R66), and the metadata
the spec keeps beside them: opcode number, arity, class, operand roles (30_encoding.md R65, R67, R74). -/

namespace Sys2Proof

/-- The source's Argument, a two-variant tagged value (00_scope.md R8, 30_encoding.md R74). The raw
numbers are wider than the decoder's range (log 8): the resolver has checks of its own for a literal
above 32767 and an index above 7 (40_step_cycle.md R88), and `Arg.wf` says which arguments pass. -/
inductive Arg where
  /-- An argument whose value is used directly. -/
  | literal (w : Cell16)
  /-- An argument that names a register by its index. -/
  | register (i : Nat)
  deriving DecidableEq, Repr

/-- The source's Command: one constructor per row of spec/opcode_table.json, arguments in the order
`a`, `b`, `c` of the words (30_encoding.md R60, R66). -/
inductive Instr where
  | halt
  | set (a b : Arg)
  | push (a : Arg)
  | pop (a : Arg)
  | equal (a b c : Arg)
  | greaterThan (a b c : Arg)
  | jump (a : Arg)
  | jumpIfTrue (a b : Arg)
  | jumpIfFalse (a b : Arg)
  | add (a b c : Arg)
  | multiply (a b c : Arg)
  | modulo (a b c : Arg)
  | bitAnd (a b c : Arg)
  | bitOr (a b c : Arg)
  | not (a b : Arg)
  | readMemory (a b : Arg)
  | writeMemory (a b : Arg)
  | call (a : Arg)
  | ret
  | output (a : Arg)
  | input (a : Arg)
  | noop
  deriving DecidableEq, Repr

/-- The two execution shapes of the dispatcher (40_step_cycle.md R85). -/
inductive OpClass where
  | storage
  | controlFlow
  deriving DecidableEq, Repr

/-- The arity of each opcode number 0..21, in order (30_encoding.md R65, R66). -/
def arityTable : List Nat :=
  [0, 2, 1, 1, 3, 3, 1, 2, 2, 3, 3, 3, 3, 3, 2, 2, 2, 1, 0, 1, 1, 0]

namespace Instr

/-- The opcode number, which is the whole opcode word (30_encoding.md R62, R66). -/
def opcode : Instr → Nat
  | halt => 0
  | set _ _ => 1
  | push _ => 2
  | pop _ => 3
  | equal _ _ _ => 4
  | greaterThan _ _ _ => 5
  | jump _ => 6
  | jumpIfTrue _ _ => 7
  | jumpIfFalse _ _ => 8
  | add _ _ _ => 9
  | multiply _ _ _ => 10
  | modulo _ _ _ => 11
  | bitAnd _ _ _ => 12
  | bitOr _ _ _ => 13
  | not _ _ => 14
  | readMemory _ _ => 15
  | writeMemory _ _ => 16
  | call _ => 17
  | ret => 18
  | output _ => 19
  | input _ => 20
  | noop => 21

/-- The argument list of the Command, in word order (30_encoding.md R60). -/
def args : Instr → List Arg
  | halt | ret | noop => []
  | push a | pop a | jump a | call a | output a | input a => [a]
  | set a b | jumpIfTrue a b | jumpIfFalse a b | not a b | readMemory a b | writeMemory a b => [a, b]
  | equal a b c | greaterThan a b c | add a b c | multiply a b c | modulo a b c | bitAnd a b c
  | bitOr a b c => [a, b, c]

/-- The arity table (30_encoding.md R65). -/
def arity : Instr → Nat
  | halt | ret | noop => 0
  | push _ | pop _ | jump _ | call _ | output _ | input _ => 1
  | set _ _ | jumpIfTrue _ _ | jumpIfFalse _ _ | not _ _ | readMemory _ _ | writeMemory _ _ => 2
  | equal _ _ _ | greaterThan _ _ _ | add _ _ _ | multiply _ _ _ | modulo _ _ _ | bitAnd _ _ _
  | bitOr _ _ _ => 3

/-- The classification of 40_step_cycle.md R85. -/
def opClass : Instr → OpClass
  | halt | ret | noop | push _ | jump _ | jumpIfTrue _ _ | jumpIfFalse _ _ | writeMemory _ _
  | call _ | output _ => .controlFlow
  | set _ _ | pop _ | equal _ _ _ | greaterThan _ _ _ | add _ _ _ | multiply _ _ _ | modulo _ _ _
  | bitAnd _ _ _ | bitOr _ _ _ | not _ _ | readMemory _ _ | input _ => .storage

/-- The destination argument: `a` of a storage operation, and no other (30_encoding.md R67). -/
def dest? : Instr → Option Arg
  | halt | ret | noop | push _ | jump _ | jumpIfTrue _ _ | jumpIfFalse _ _ | writeMemory _ _
  | call _ | output _ => none
  | set a _ | pop a | equal a _ _ | greaterThan a _ _ | add a _ _ | multiply a _ _ | modulo a _ _
  | bitAnd a _ _ | bitOr a _ _ | not a _ | readMemory a _ | input a => some a

/-- The source operands in the order they are resolved (30_encoding.md R67, 40_step_cycle.md R88). -/
def sources : Instr → List Arg
  | halt | ret | noop | pop _ | input _ => []
  | push a | jump a | call a | output a => [a]
  | jumpIfTrue a b | jumpIfFalse a b | writeMemory a b => [a, b]
  | set _ b | not _ b | readMemory _ b => [b]
  | equal _ b c | greaterThan _ b c | add _ b c | multiply _ b c | modulo _ b c | bitAnd _ b c
  | bitOr _ b c => [b, c]

end Instr

end Sys2Proof
end

