-- ==== Sys2Proof/WellFormed.lean ====
section
/-! DEFINITION. Well-formed arguments and instructions: what the decoder can produce (30_encoding.md R63). A
Literal in a destination position is well formed (30_encoding.md R69): phase D rejects it, not the decoder. -/

namespace Sys2Proof

/-- `Literal(word)` with word in 0..32767, or `Register(index)` with index in 0..7 (00_scope.md R8). -/
def Arg.wf : Arg → Bool
  | .literal w => decide (w.toNat ≤ 32767)
  | .register i => decide (i ≤ 7)

/-- Every argument is one the decoder can produce. -/
def Instr.wf (i : Instr) : Bool := i.args.all Arg.wf

end Sys2Proof
end

