-- ==== Sys2Proof/Decode.lean ====
section
/-! DEFINITION. The instruction decoder, total on any list of cells and rejecting by name
(30_encoding.md R60 to R69, 40_step_cycle.md R81 to R84), and after it the encoder. The list holds the cells
that exist from the opcode word on: where it ends, memory ends. -/

namespace Sys2Proof

/-- Why a decode fails (40_step_cycle.md R81 to R83). -/
inductive DecodeError where
  /-- The opcode word does not exist: end of instructions, not an error (R81). -/
  | noOpcodeWord
  /-- The opcode word is above 21 (R82). -/
  | invalidOpcode
  /-- An argument word does not exist (R83, decision D4). -/
  | missingArgument
  /-- An argument word is 32776 or above (R83). -/
  | invalidArgument
  deriving DecidableEq, Repr

/-- One argument word, by value (30_encoding.md R63). -/
def decodeArg (w : Cell16) : Except DecodeError Arg :=
  if w.toNat ≤ 32767 then .ok (.literal w)
  else if w.toNat ≤ 32775 then .ok (.register (w.toNat - Config.regBase))
  else .error .invalidArgument

/-- Fetch and decode the next argument word: first whether it exists, then whether it is valid
(40_step_cycle.md R83). -/
def takeArg : List Cell16 → Except DecodeError (Arg × List Cell16)
  | [] => .error .missingArgument
  | w :: ws =>
    match decodeArg w with
    | .ok a => .ok (a, ws)
    | .error e => .error e

/-- Format W1 (30_encoding.md R61). -/
def decode1 (mk : Arg → Instr) (ws : List Cell16) : Except DecodeError (Instr × List Cell16) :=
  match takeArg ws with
  | .ok (a, ws) => .ok (mk a, ws)
  | .error e => .error e

/-- Format W2 (30_encoding.md R61): `a` is taken before `b` is looked at. -/
def decode2 (mk : Arg → Arg → Instr) (ws : List Cell16) :
    Except DecodeError (Instr × List Cell16) :=
  match takeArg ws with
  | .ok (a, ws) => decode1 (mk a) ws
  | .error e => .error e

/-- Format W3 (30_encoding.md R61). -/
def decode3 (mk : Arg → Arg → Arg → Instr) (ws : List Cell16) :
    Except DecodeError (Instr × List Cell16) :=
  match takeArg ws with
  | .ok (a, ws) => decode2 (mk a) ws
  | .error e => .error e

/-- The opcode map (30_encoding.md R66): the opcode number chooses the format and the instruction; every
number above 21 is illegal (R68), and then no argument word is looked at. -/
def decodeBody (op : Nat) (ws : List Cell16) : Except DecodeError (Instr × List Cell16) :=
  match op with
  | 0 => .ok (.halt, ws)
  | 1 => decode2 .set ws
  | 2 => decode1 .push ws
  | 3 => decode1 .pop ws
  | 4 => decode3 .equal ws
  | 5 => decode3 .greaterThan ws
  | 6 => decode1 .jump ws
  | 7 => decode2 .jumpIfTrue ws
  | 8 => decode2 .jumpIfFalse ws
  | 9 => decode3 .add ws
  | 10 => decode3 .multiply ws
  | 11 => decode3 .modulo ws
  | 12 => decode3 .bitAnd ws
  | 13 => decode3 .bitOr ws
  | 14 => decode2 .not ws
  | 15 => decode2 .readMemory ws
  | 16 => decode2 .writeMemory ws
  | 17 => decode1 .call ws
  | 18 => .ok (.ret, ws)
  | 19 => decode1 .output ws
  | 20 => decode1 .input ws
  | 21 => .ok (.noop, ws)
  | _ => .error .invalidOpcode

/-- The decoder (40_step_cycle.md R81 to R84): the instruction and the cells after its last word. -/
def decode : List Cell16 → Except DecodeError (Instr × List Cell16)
  | [] => .error .noOpcodeWord
  | w :: ws => decodeBody w.toNat ws

/-- The argument word of an argument: the value itself, or 32768 + index (30_encoding.md R63, R70). -/
def encodeArg : Arg → Cell16
  | .literal w => w
  | .register i => BitVec.ofNat 16 (Config.regBase + i)

/-- The words of an instruction: its opcode number, then one word per argument (30_encoding.md R60, R66,
R70). -/
def encode (i : Instr) : List Cell16 := BitVec.ofNat 16 i.opcode :: i.args.map encodeArg

/-- The `n` cells of a number, the least significant first: the numbering of spec/opcode_table.json, bit 0
the least significant bit of the first word. -/
def cellsOfNat : (n : Nat) → Nat → List Cell16
  | 0, _ => []
  | n + 1, w => BitVec.ofNat 16 w :: cellsOfNat n (w / 65536)

/-- The four cells of a table word of `nbits` bits, every higher bit 0 (the longest instruction has four
cells, 30_encoding.md R60). -/
def tableCells (nbits w : Nat) : List Cell16 := cellsOfNat (1 + Config.maxArity) (w % 2 ^ nbits)

/-- What the decoder reads from a word numbered as spec/opcode_table.json numbers it. -/
def decodeTableWord (nbits w : Nat) : Option Instr :=
  match decode (tableCells nbits w) with
  | .ok (i, _) => some i
  | .error _ => none

end Sys2Proof
end

