-- ==== Sys2Proof/Machine/State.lean ====
section
/-! DEFINITION. The machine's state as plain data (10_state.md R20 to R32, R34 to R36), the reasons a step could
stop, and the state after reset. -/

namespace Sys2Proof.Machine

/-- The reasons of a clean stop (10_state.md R28, 60_exceptions.md R182, R183). -/
inductive HaltReason where
  | machineHalted
  | noMoreInstructions
  deriving DecidableEq, Repr

/-- The error kinds (10_state.md R28, 60_exceptions.md R170). -/
inductive ErrorKind where
  | invalidOpcode
  | invalidArgument
  | invalidLiteral
  | invalidRegister
  | stackExhausted
  | arithmeticError
  | memoryOutOfRange
  | ioError
  | returnAddressOverflow
  deriving DecidableEq, Repr

/-- The engine status (10_state.md R28). -/
inductive Status where
  | running
  | halted (r : HaltReason)
  | errored (k : ErrorKind)
  deriving DecidableEq, Repr

/-- Memory (10_state.md R27, log 1): `extent` cells exist, at addresses 0..extent-1. `cells` lists those
of them that do not hold 0, as pairs of address and content, addresses strictly rising. -/
structure Memory where
  cells : List (Nat × Cell16)
  extent : Nat
  deriving DecidableEq, Repr

/-- The whole state of the machine. The first six fields are the spec's architectural state
(10_state.md R20, `mem` holding both the cells and the extent). -/
structure State where
  /-- `x[0..7]` (10_state.md R21). -/
  regs : Vector Cell16 8
  /-- The address of the next instruction, 0..65536 (10_state.md R24, R25). -/
  pc : Pc
  /-- The stack, top entry first (10_state.md R26). -/
  stack : List Cell16
  /-- Memory cells and extent (10_state.md R27). -/
  mem : Memory
  /-- The engine status (10_state.md R28). -/
  status : Status
  /-- The model's own field (log 3): the answers the input collaborator gives next, first one first. -/
  inPending : List InAnswer
  /-- The characters taken from IN, oldest first (10_state.md R34). -/
  inTaken : List Value15
  /-- The values handed to OUT, oldest first (10_state.md R34). -/
  outTrace : List Cell16
  deriving DecidableEq, Repr

/-- Reasons for a step to stop outside the machine's own status. There is none: every error and every halt
of the spec is a value of `status` (60_exceptions.md R172, R173), and so a next state (log 6). Safe: no
step is cut short. -/
inductive Fault where
  deriving DecidableEq, Repr

/-- Reasons to give no meaning. -/
inductive Refusal where
  /-- Raised only by an arm of `exec` whose instruction has no meaning yet; no arm of this model is one.
  Safe: the run stops. -/
  | notModelled (mnemonic : String)
  /-- Raised by `construct` on an image of more than 65536 words, for which the spec has no launch
  (70_reset_and_hazards.md R196, 93_implementation_defined.md U11). Safe: no run begins. -/
  | imageTooLong
  deriving DecidableEq, Repr

/-- The state right after reset (10_state.md R36, 70_reset_and_hazards.md R195) from the empty image
(log 5): registers and pc zero, stack empty, running, no memory cell exists. The three input and output
records are empty (log 4). -/
def State.reset : State where
  regs := Vector.replicate 8 0
  pc := 0
  stack := []
  mem := { cells := [], extent := 0 }
  status := .running
  inPending := []
  inTaken := []
  outTrace := []

end Sys2Proof.Machine
end

