-- ==== Sys2Proof/Machine/Ops.lean ====
section
/-! DEFINITION. The named operations over memory, registers, stack, pc, status and the two collaborators, which
every meaning is written over (00_scope.md R9). -/

namespace Sys2Proof.Machine

/-- The answer of a meaning or a step. -/
abbrev Out := Host.Outcome State Fault Refusal

/-- The state of a `next`, if it is one. -/
def Out.state? : Out → Option State
  | .next s => some s
  | .fault _ => none
  | .refused _ => none

/-! ### Memory (20_memory.md R42 to R44) -/

/-- What an existing cell that `cells` does not list holds: zero fill (20_memory.md R43, log 1). -/
@[simp] abbrev unlistedCell : Cell16 := 0

/-- The content `cells` gives an address. -/
def lookupCell (k : Nat) : List (Nat × Cell16) → Cell16
  | [] => unlistedCell
  | (a, w) :: rest => if k = a then w else lookupCell k rest

/-- Put a cell into a list of rising addresses. -/
def insertCell (k : Nat) (v : Cell16) : List (Nat × Cell16) → List (Nat × Cell16)
  | [] => [(k, v)]
  | (a, w) :: rest =>
    if k < a then (k, v) :: (a, w) :: rest
    else if k = a then (k, v) :: rest
    else (a, w) :: insertCell k v rest

/-- Make address `k` hold `v`, keeping the canonical form: a cell that holds what an unlisted one holds is
not listed. -/
def putCell (k : Nat) (v : Cell16) (cells : List (Nat × Cell16)) : List (Nat × Cell16) :=
  if v = unlistedCell then cells.filter (fun c => c.1 != k) else insertCell k v cells

/-- `MemRead(addr, 1)`: all 16 bits of an existing cell, nothing at or beyond the extent
(20_memory.md R42). -/
def Memory.read (m : Memory) (addr : Nat) : Option Cell16 :=
  if addr < m.extent then some (lookupCell addr m.cells) else none

/-- `MemWrite(addr, 1, v)`: grow to `addr + 1` cells if needed, new cells 0, then store; it cannot fail
(20_memory.md R43). The filter is the zero fill: nothing at or beyond the old extent stays listed. -/
def Memory.write (m : Memory) (addr : Cell16) (v : Cell16) : Memory where
  cells := putCell addr.toNat v (m.cells.filter (fun c => decide (c.1 < m.extent)))
  extent := max m.extent (addr.toNat + 1)

/-- The canonical form: addresses strictly rising, none at or beyond the extent, no listed cell holds what
an unlisted one holds; and at most 65536 cells exist (20_memory.md R44). -/
abbrev Memory.wf (m : Memory) : Prop :=
  (m.cells.map Prod.fst).Pairwise (· < ·) ∧
    (∀ c ∈ m.cells, c.1 < m.extent ∧ c.2 ≠ unlistedCell) ∧ m.extent ≤ Config.memMaxExtent

/-- The existing cells at `n` consecutive addresses from `addr` on, stopping at the first that does not
exist (20_memory.md R47). -/
def Memory.readFrom (m : Memory) (addr : Nat) : Nat → List Cell16
  | 0 => []
  | n + 1 =>
    match m.read addr with
    | some w => w :: m.readFrom (addr + 1) n
    | none => []

/-- Store cells at consecutive addresses from `addr` on, as far as the address space reaches. -/
def Memory.writeFrom (m : Memory) (addr : Nat) : List Cell16 → Memory
  | [] => m
  | w :: ws =>
    if addr ≤ Config.memAddrMax then (m.write (BitVec.ofNat 16 addr) w).writeFrom (addr + 1) ws
    else m

/-! ### Registers, pc, stack, status (00_scope.md R9) -/

/-- `x[d] <- v` (10_state.md R21: an ordinary cell, no register is hard-wired). -/
def State.setReg (s : State) (d : Fin 8) (v : Cell16) : State := { s with regs := s.regs.set d v }

/-- `pc <- t`. -/
def State.setPc (s : State) (t : Pc) : State := { s with pc := t }

/-- `pc <- pc + n`: the sequential advance over the `n` words of an instruction (40_step_cycle.md R90). -/
def State.advance (s : State) (n : Nat) : State := s.setPc (s.pc + BitVec.ofNat 17 n)

/-- Commit a 16-bit transfer target (10_state.md R25: a transfer sets pc to a Cell16). -/
def State.jumpTo (s : State) (t : Cell16) : State := s.setPc (t.setWidth 17)

/-- `push(v)`. -/
def State.pushCell (s : State) (v : Cell16) : State := { s with stack := v :: s.stack }

/-- Replace the stack by what is left after a pop. -/
def State.setStack (s : State) (st : List Cell16) : State := { s with stack := st }

/-- `MemWrite` on the state. -/
def State.store (s : State) (addr v : Cell16) : State := { s with mem := s.mem.write addr v }

/-- TAKING AN ERROR, the one shared operation: `raise <Kind>` writes the status and nothing else; nothing
is saved and control goes nowhere (60_exceptions.md R172, R187). There is no return from it (R188). -/
def State.raise (s : State) (k : ErrorKind) : State := { s with status := .errored k }

/-- `halt(<Reason>)` writes the status and nothing else (60_exceptions.md R173). -/
def State.halt (s : State) (r : HaltReason) : State := { s with status := .halted r }

/-! ### Collaborators (45_system_io.md R161, R162) -/

/-- `InChar()`: the answer the collaborator gives next: the first pending one, or the free value where none
is pending (log 3). -/
def State.nextAnswer (s : State) : InAnswer :=
  match s.inPending with
  | a :: _ => a
  | [] => Config.inputAnswer s.inTaken.length

/-- Consume a `Char(c)` answer and record it. -/
def State.takeChar (s : State) (c : Value15) : State :=
  { s with inPending := s.inPending.tail, inTaken := s.inTaken ++ [c] }

/-- `OutChar(v)`: hand one 16-bit value to the output collaborator; it never fails (45_system_io.md R162). -/
def State.outChar (s : State) (v : Cell16) : State := { s with outTrace := s.outTrace ++ [v] }

/-! ### Instruction fetch (40_step_cycle.md R81 to R83) -/

/-- The cells that exist at `pc .. pc + 3`, in order; the address does not wrap (40_step_cycle.md R83). -/
def State.fetchCells (s : State) : List Cell16 := s.mem.readFrom s.pc.toNat (1 + Config.maxArity)

/-- What a failed decode does to the machine (40_step_cycle.md R81 to R83): the missing opcode word is a
clean stop, the rest are errors. -/
def State.decodeFailed (s : State) : DecodeError → State
  | .noOpcodeWord => s.halt .noMoreInstructions
  | .invalidOpcode => s.raise .invalidOpcode
  | .missingArgument => s.raise .memoryOutOfRange
  | .invalidArgument => s.raise .invalidArgument

end Sys2Proof.Machine
end

