-- ==== Sys2Proof/Machine/Flags.lean ====
section
/-! DEFINITION. The machine has no flags (10_state.md R30): a comparison writes 0 or 1 into a general register and
a conditional jump tests a general operand against zero. Both conventions are here. -/

namespace Sys2Proof.Machine

/-- The cell a comparison writes (42_alu.md R111, R112). -/
def truthCell (p : Bool) : Cell16 := if p then 1 else 0

/-- The condition test of JumpIfTrue and JumpIfFalse: all 16 bits count (43_control_transfer.md R131,
R132). -/
def conditionHolds (v : Cell16) : Bool := v != 0

end Sys2Proof.Machine
end

