-- ==== Sys2Proof/Machine/Operands.lean ====
section
/-! DEFINITION. The argument resolver and the destination check (40_step_cycle.md R86 to R88): the two operand
roles of 30_encoding.md R67 and every form of each. -/

namespace Sys2Proof.Machine

/-- Phase R: the value of a source operand, all 16 bits of a register (40_step_cycle.md R87), with the
resolver's own two checks (R88). -/
def resolve (a : Arg) (regs : Vector Cell16 8) : Except ErrorKind Cell16 :=
  match a with
  | .literal w => if w.toNat ≤ 32767 then .ok w else .error .invalidLiteral
  | .register i => if h : i < 8 then .ok regs[i] else .error .invalidRegister

/-- Phase D: the register a destination argument names; it is never resolved (10_state.md R23). A Literal
names none (40_step_cycle.md R86), nor does an index above 7 (R88, log 8). -/
def destIndex : Arg → Except ErrorKind (Fin 8)
  | .literal _ => .error .invalidRegister
  | .register i => if h : i < 8 then .ok ⟨i, h⟩ else .error .invalidRegister

/-- Go on with the destination register, or end the step (40_step_cycle.md R86). -/
def withDest (a : Arg) (s : State) (go : Fin 8 → Out) : Out :=
  match destIndex a with
  | .ok d => go d
  | .error k => .next (s.raise k)

/-- Go on with a source operand's value, or end the step (40_step_cycle.md R87, R88). -/
def withValue (a : Arg) (s : State) (go : Cell16 → Out) : Out :=
  match resolve a s.regs with
  | .ok v => go v
  | .error k => .next (s.raise k)

end Sys2Proof.Machine
end

