-- ==== Sys2Proof/Machine/Alu.lean ====
section
/-! DEFINITION. The ALU and its eight instructions (42_alu.md R110 to R118). Operands are full 16-bit values read
as natural numbers; the result is formed exactly and then reduced modulo 32768. -/

namespace Sys2Proof.Machine

/-- The reduction every ALU result goes through (42_alu.md R110). -/
def reduce (n : Nat) : Cell16 := BitVec.ofNat 16 (n % Config.modulus)

/-- R111. -/
def aluEqual (x y : Cell16) : Cell16 := truthCell (decide (x = y))

/-- R112, unsigned. -/
def aluGreaterThan (x y : Cell16) : Cell16 := truthCell (decide (x.toNat > y.toNat))

/-- R113. -/
def aluAdd (x y : Cell16) : Cell16 := reduce (x.toNat + y.toNat)

/-- R114: the full product, then the low 15 bits. -/
def aluMultiply (x y : Cell16) : Cell16 := reduce (x.toNat * y.toNat)

/-- R115: the remainder of unsigned division, or ArithmeticError when all 16 bits of the divisor are 0. -/
def aluModulo (x y : Cell16) : Except ErrorKind Cell16 :=
  if y.toNat = 0 then .error .arithmeticError else .ok (reduce (x.toNat % y.toNat))

/-- R116. -/
def aluAnd (x y : Cell16) : Cell16 := reduce (x &&& y).toNat

/-- R117. -/
def aluOr (x y : Cell16) : Cell16 := reduce (x ||| y).toNat

/-- R118. -/
def aluNot (x : Cell16) : Cell16 := ~~~x &&& 0x7FFF#16

/-- A three-argument ALU instruction: destination check, `b` then `c` resolved, the operation (which may
raise), one register written, four words passed (40_step_cycle.md R86 to R90). -/
def binaryAlu (op : Cell16 → Cell16 → Except ErrorKind Cell16) (a b c : Arg) (s : State) : Out :=
  withDest a s fun d => withValue b s fun x => withValue c s fun y =>
    match op x y with
    | .ok v => .next ((s.setReg d v).advance 4)
    | .error k => .next (s.raise k)

/-- Equal a,b,c (R111). -/
def execEqual (a b c : Arg) (s : State) : Out := binaryAlu (fun x y => .ok (aluEqual x y)) a b c s

/-- GreaterThan a,b,c (R112). -/
def execGreaterThan (a b c : Arg) (s : State) : Out :=
  binaryAlu (fun x y => .ok (aluGreaterThan x y)) a b c s

/-- Add a,b,c (R113). -/
def execAdd (a b c : Arg) (s : State) : Out := binaryAlu (fun x y => .ok (aluAdd x y)) a b c s

/-- Multiply a,b,c (R114). -/
def execMultiply (a b c : Arg) (s : State) : Out :=
  binaryAlu (fun x y => .ok (aluMultiply x y)) a b c s

/-- Modulo a,b,c (R115). -/
def execModulo (a b c : Arg) (s : State) : Out := binaryAlu aluModulo a b c s

/-- BitAnd a,b,c (R116). -/
def execBitAnd (a b c : Arg) (s : State) : Out := binaryAlu (fun x y => .ok (aluAnd x y)) a b c s

/-- BitOr a,b,c (R117). -/
def execBitOr (a b c : Arg) (s : State) : Out := binaryAlu (fun x y => .ok (aluOr x y)) a b c s

/-- Not a,b (R118). -/
def execNot (a b : Arg) (s : State) : Out :=
  withDest a s fun d => withValue b s fun x => .next ((s.setReg d (aluNot x)).advance 3)

end Sys2Proof.Machine
end

