-- ==== Sys2Proof/Machine/Control.lean ====
section
/-! DEFINITION. Jump, JumpIfTrue, JumpIfFalse, Call, Return (43_control_transfer.md R130 to R137). Targets are
absolute and unchecked (R135). -/

namespace Sys2Proof.Machine

/-- Jump a (R130). -/
def execJump (a : Arg) (s : State) : Out := withValue a s fun t => .next (s.jumpTo t)

/-- JumpIfTrue a,b (R131): both operands are resolved whether or not the jump is taken. -/
def execJumpIfTrue (a b : Arg) (s : State) : Out :=
  withValue a s fun v => withValue b s fun t =>
    if conditionHolds v then .next (s.jumpTo t) else .next (s.advance 3)

/-- JumpIfFalse a,b (R132). -/
def execJumpIfFalse (a b : Arg) (s : State) : Out :=
  withValue a s fun v => withValue b s fun t =>
    if conditionHolds v then .next (s.advance 3) else .next (s.jumpTo t)

/-- Call a (R133): the target is resolved before the push; a return address that does not fit a 16-bit
entry is an error and nothing is pushed. -/
def execCall (a : Arg) (s : State) : Out :=
  withValue a s fun t =>
    if s.pc.toNat + 2 > 65535 then .next (s.raise .returnAddressOverflow)
    else .next ((s.pushCell (BitVec.ofNat 16 (s.pc.toNat + 2))).jumpTo t)

/-- Return (R134): a clean halt on the empty stack, else the popped value, all 16 bits, is the new pc. -/
def execReturn (s : State) : Out :=
  match s.stack with
  | [] => .next (s.halt .machineHalted)
  | v :: rest => .next ((s.setStack rest).jumpTo v)

end Sys2Proof.Machine
end

