-- ==== Sys2Proof/Machine/LoadStore.lean ====
section
/-! DEFINITION. ReadMemory and WriteMemory (44_memory_ops.md R145, R146). -/

namespace Sys2Proof.Machine

/-- ReadMemory a,b (R145): the cell moves unchanged; an address at or beyond the extent is an error. -/
def execReadMemory (a b : Arg) (s : State) : Out :=
  withDest a s fun d => withValue b s fun addr =>
    match s.mem.read addr.toNat with
    | some v => .next ((s.setReg d v).advance 3)
    | none => .next (s.raise .memoryOutOfRange)

/-- WriteMemory a,b (R146): `a` is the address, `b` the data, both resolved; it never fails. -/
def execWriteMemory (a b : Arg) (s : State) : Out :=
  withValue a s fun addr => withValue b s fun v => .next ((s.store addr v).advance 3)

end Sys2Proof.Machine
end

