-- ==== Sys2Proof/Machine/MoveStack.lean ====
section
/-! DEFINITION. Set, Push, Pop (41_move_and_stack.md R100 to R102). -/

namespace Sys2Proof.Machine

/-- Set a,b (R100). -/
def execSet (a b : Arg) (s : State) : Out :=
  withDest a s fun d => withValue b s fun v => .next ((s.setReg d v).advance 3)

/-- Push a (R101). -/
def execPush (a : Arg) (s : State) : Out :=
  withValue a s fun v => .next ((s.pushCell v).advance 2)

/-- Pop a (R102): the destination is checked before the stack is looked at. -/
def execPop (a : Arg) (s : State) : Out :=
  withDest a s fun d =>
    match s.stack with
    | [] => .next (s.raise .stackExhausted)
    | v :: rest => .next (((s.setStack rest).setReg d v).advance 2)

end Sys2Proof.Machine
end

