-- ==== Sys2Proof/Machine/SystemIo.lean ====
section
/-! DEFINITION. Halt, Noop, Output, Input (45_system_io.md R155 to R158). -/

namespace Sys2Proof.Machine

/-- Halt (R155): pc stays at the Halt word. -/
def execHalt (s : State) : Out := .next (s.halt .machineHalted)

/-- Noop (R156). -/
def execNoop (s : State) : Out := .next (s.advance 1)

/-- Output a (R157): the full 16-bit value is handed over. -/
def execOutput (a : Arg) (s : State) : Out :=
  withValue a s fun v => .next ((s.outChar v).advance 2)

/-- Input a (R158): the destination is checked before the collaborator is asked; on Fail nothing is
consumed or written. -/
def execInput (a : Arg) (s : State) : Out :=
  withDest a s fun d =>
    match s.nextAnswer with
    | .char c => .next (((s.takeChar c).setReg d (c.setWidth 16)).advance 2)
    | .fail => .next (s.raise .ioError)

end Sys2Proof.Machine
end

