-- ==== Sys2Proof/Machine/Dispatch.lean ====
section
/-! DEFINITION. The command dispatcher (40_step_cycle.md R85): one arm per opcode. -/

namespace Sys2Proof.Machine

def exec (i : Instr) (s : State) : Host.Outcome State Fault Refusal :=
  match i with
  | .halt => Sys2Proof.Machine.execHalt s
  | .set a b => Sys2Proof.Machine.execSet a b s
  | .push a => Sys2Proof.Machine.execPush a s
  | .pop a => Sys2Proof.Machine.execPop a s
  | .equal a b c => Sys2Proof.Machine.execEqual a b c s
  | .greaterThan a b c => Sys2Proof.Machine.execGreaterThan a b c s
  | .jump a => Sys2Proof.Machine.execJump a s
  | .jumpIfTrue a b => Sys2Proof.Machine.execJumpIfTrue a b s
  | .jumpIfFalse a b => Sys2Proof.Machine.execJumpIfFalse a b s
  | .add a b c => Sys2Proof.Machine.execAdd a b c s
  | .multiply a b c => Sys2Proof.Machine.execMultiply a b c s
  | .modulo a b c => Sys2Proof.Machine.execModulo a b c s
  | .bitAnd a b c => Sys2Proof.Machine.execBitAnd a b c s
  | .bitOr a b c => Sys2Proof.Machine.execBitOr a b c s
  | .not a b => Sys2Proof.Machine.execNot a b s
  | .readMemory a b => Sys2Proof.Machine.execReadMemory a b s
  | .writeMemory a b => Sys2Proof.Machine.execWriteMemory a b s
  | .call a => Sys2Proof.Machine.execCall a s
  | .ret => Sys2Proof.Machine.execReturn s
  | .output a => Sys2Proof.Machine.execOutput a s
  | .input a => Sys2Proof.Machine.execInput a s
  | .noop => Sys2Proof.Machine.execNoop s

end Sys2Proof.Machine
end

