-- ==== Sys2Proof/Machine/Step.lean ====
section
/-! DEFINITION. One step of the Engine (40_step_cycle.md R80, R94). -/

namespace Sys2Proof.Machine

/-- The complete step (40_step_cycle.md R94): enabled while running; decode the instruction at pc, then
execute it or end with the decode's failure. A request in a terminal state does nothing (R92, log 6). -/
def step (s : State) : Host.Outcome State Fault Refusal :=
  match s.status with
  | .running =>
    match decode s.fetchCells with
    | .ok (i, _) => exec i s
    | .error e => .next (s.decodeFailed e)
  | .halted _ => .next s
  | .errored _ => .next s

/-- The state in which the very next step fetches the instruction of a table word: its four cells are
stored at pc, growing memory where they do not exist, and the machine is running (log 5). -/
def State.withFetchWord (s : State) (nbits w : Nat) : State :=
  { s with mem := s.mem.writeFrom s.pc.toNat (tableCells nbits w), status := .running }

end Sys2Proof.Machine
end

