-- ==== Sys2Proof/Machine/Interface.lean ====
section
/-! DEFINITION. The host's side of the block (10_state.md R33, 70_reset_and_hazards.md R202): IMAGE, RUN and STATUS.
STEP is `step`; IN and OUT are in Machine/Ops.lean. -/

namespace Sys2Proof.Machine

/-! ### IMAGE (70_reset_and_hazards.md R195, R196) -/

/-- The words of an image byte stream, little-endian; a trailing odd byte never reaches the core
(R196). -/
def imageWords : List (BitVec 8) → List Cell16
  | lo :: hi :: rest => BitVec.ofNat 16 (lo.toNat + 256 * hi.toNat) :: imageWords rest
  | [_] => []
  | [] => []

/-- The canonical cells of words laid down from address `k` on. -/
def cellsFrom (k : Nat) : List Cell16 → List (Nat × Cell16)
  | [] => []
  | w :: ws => if w = unlistedCell then cellsFrom (k + 1) ws else (k, w) :: cellsFrom (k + 1) ws

/-- Memory as construction leaves it: word `k` of the image in cell `k`, nothing beyond. -/
def Memory.ofImage (image : List Cell16) : Memory where
  cells := cellsFrom 0 image
  extent := image.length

/-- Reset proper, which is construction from an image (R195): an image of more than 65536 words has no
launch (R196). -/
def construct (image : List Cell16) : Except Refusal State :=
  if image.length ≤ Config.memMaxExtent then .ok { State.reset with mem := .ofImage image }
  else .error .imageTooLong

/-! ### RUN (40_step_cycle.md R91) -/

/-- `Run` with a bound on the steps: step while the status is Running. -/
def runFor : Nat → State → Out
  | 0, s => .next s
  | n + 1, s =>
    match s.status with
    | .running =>
      match step s with
      | .next t => runFor n t
      | .fault f => .fault f
      | .refused r => .refused r
    | .halted _ => .next s
    | .errored _ => .next s

/-! ### STATUS (60_exceptions.md R170, R190) -/

/-- The spec's own numbering of the status values (60_exceptions.md R170). -/
def Status.code : Status → Nat
  | .running => 0
  | .halted .machineHalted => 1
  | .halted .noMoreInstructions => 2
  | .errored .invalidOpcode => 3
  | .errored .invalidArgument => 4
  | .errored .invalidLiteral => 5
  | .errored .invalidRegister => 6
  | .errored .stackExhausted => 7
  | .errored .arithmeticError => 8
  | .errored .memoryOutOfRange => 9
  | .errored .ioError => 10
  | .errored .returnAddressOverflow => 11

/-- What `Run` returns at the end of a run (60_exceptions.md R190): success for either halt, the error
unmodified otherwise; nothing while the machine still runs. -/
def Status.result? : Status → Option (Except ErrorKind Unit)
  | .running => none
  | .halted _ => some (.ok ())
  | .errored k => some (.error k)

end Sys2Proof.Machine
end

