-- ==== Sys2Proof/Safety.lean ====
section
/-! DEFINITION. What claims are stated in: the invariant of the machine's data, the end of a run
(70_reset_and_hazards.md R201), and the states without wide values (10_state.md R29). -/

namespace Sys2Proof.Machine

/-- The data is what the spec says it can be: memory in canonical form with at most 65536 cells
(20_memory.md R44) and pc in 0..65536 (10_state.md R25). -/
abbrev State.Inv (s : State) : Prop := s.mem.wf ∧ s.pc.toNat ≤ 65536

/-- A run is over (70_reset_and_hazards.md R201). -/
abbrev State.Over (s : State) : Prop := s.status ≠ .running

/-- A successful run (70_reset_and_hazards.md R201). -/
def State.Succeeded (s : State) : Prop := ∃ r, s.status = .halted r

/-- A failed run (70_reset_and_hazards.md R201). -/
def State.Failed (s : State) : Prop := ∃ k, s.status = .errored k

/-- Not a wide value (10_state.md R29). -/
abbrev Narrow (v : Cell16) : Prop := v.toNat ≤ 32767

/-- No register and no stack entry holds a wide value (10_state.md R29). -/
abbrev State.NoWide (s : State) : Prop := (∀ d : Fin 8, Narrow s.regs[d]) ∧ ∀ v ∈ s.stack, Narrow v

/-- The instruction at pc, if decoding it succeeds. -/
def State.instrAt (s : State) (i : Instr) : Prop := ∃ rest, decode s.fetchCells = .ok (i, rest)

/-- Phase A gets to argument word `k`, counted from 0: the opcode word at pc is legal and has such an argument, and
the argument words before it exist and are valid (40_step_cycle.md R82, R83). -/
def State.reachesArgument (s : State) (k : Nat) : Prop :=
  ∃ (w : Cell16) (n : Nat), s.mem.read s.pc.toNat = some w ∧ arityTable[w.toNat]? = some n ∧ k < n ∧
    ∀ j < k, ∃ v : Cell16, s.mem.read (s.pc.toNat + 1 + j) = some v ∧ v.toNat ≤ 32775

/-- The execute phases of a list of instructions, one after another, for laws about sequences
(41_move_and_stack.md R103). -/
def execAll : List Instr → State → Out
  | [], s => .next s
  | i :: is, s =>
    match exec i s with
    | .next t => execAll is t
    | .fault f => .fault f
    | .refused r => .refused r

end Sys2Proof.Machine
end

