-- ==== Sys2Proof/Certificates/Slice0/Obligations.lean ====
section
/-! DEFINITION. The statements for the provers. Each docstring names the rules of spec/ it formalises. Where a clause
rests on a decision the spec marks as its own (D<n> of 92_eei_decisions.md) the docstring says so. -/

open Sys2Proof Sys2Proof.Machine

/-! ## Reset and image -/

/-- 10_state.md R36 (with D2, D3, D21 for the extent): what construction from an image leaves. The three
input and output records are the model's own (log 4) and are not mentioned. -/
def Obligations.ConstructionLeavesResetState : Prop :=
  ∀ image : List Cell16, image.length ≤ 65536 →
    ∃ s, construct image = .ok s ∧ (∀ d : Fin 8, s.regs[d] = 0) ∧ s.pc = 0 ∧ s.stack = [] ∧
      s.status = .running ∧ s.mem.extent = image.length ∧ ∀ k : Nat, s.mem.read k = image[k]?

/-- 70_reset_and_hazards.md R196 (with D21 for the odd byte): an image stream of bytes is little-endian words,
word `k` in cell `k`, as many cells as whole words. -/
def Obligations.ImageBytesAreLittleEndianWords : Prop :=
  ∀ bytes : List (BitVec 8), bytes.length / 2 ≤ 65536 →
    ∃ s, construct (imageWords bytes) = .ok s ∧ s.mem.extent = bytes.length / 2 ∧
      ∀ (k : Nat) (lo hi : BitVec 8), bytes[2 * k]? = some lo → bytes[2 * k + 1]? = some hi →
        s.mem.read k = some (BitVec.ofNat 16 (lo.toNat + 256 * hi.toNat))

/-- 70_reset_and_hazards.md R196: an empty image is legal and its first step stops cleanly. That State.reset is
the construction from it (log 5) and that a longer image than 65536 words is refused (log 13, D21) are the
model's choices. -/
def Obligations.EmptyImageStopsCleanlyAndLongImageIsRefused : Prop :=
  construct [] = .ok State.reset ∧
    step State.reset = .next { State.reset with status := .halted .noMoreInstructions } ∧
    ∀ image : List Cell16, 65536 < image.length → construct image = .error .imageTooLong

/-! ## Encoding -/

/-- 30_encoding.md R60 to R67: decoding the words of a well-formed instruction gives it back, whatever
follows them. -/
def Obligations.DecodeOfEncodeIsIdentity : Prop :=
  ∀ (i : Instr) (rest : List Cell16), i.wf = true → decode (encode i ++ rest) = .ok (i, rest)

/-- 30_encoding.md R60 to R67: whatever decodes is the encoding of a well-formed instruction, so no bit of a
word is ignored and no two words mean the same. -/
def Obligations.EncodeOfDecodeIsIdentity : Prop :=
  ∀ (ws : List Cell16) (i : Instr) (rest : List Cell16), decode ws = .ok (i, rest) →
    i.wf = true ∧ encode i ++ rest = ws

/-- 30_encoding.md R66 (numbers other than 9 and 19 by D1): the words of every instruction. -/
def Obligations.OpcodeMapOfAllInstructions : Prop :=
  ∀ a b c : Arg,
    encode .halt = [0] ∧ encode (.set a b) = [1, encodeArg a, encodeArg b] ∧
    encode (.push a) = [2, encodeArg a] ∧ encode (.pop a) = [3, encodeArg a] ∧
    encode (.equal a b c) = [4, encodeArg a, encodeArg b, encodeArg c] ∧
    encode (.greaterThan a b c) = [5, encodeArg a, encodeArg b, encodeArg c] ∧
    encode (.jump a) = [6, encodeArg a] ∧ encode (.jumpIfTrue a b) = [7, encodeArg a, encodeArg b] ∧
    encode (.jumpIfFalse a b) = [8, encodeArg a, encodeArg b] ∧
    encode (.add a b c) = [9, encodeArg a, encodeArg b, encodeArg c] ∧
    encode (.multiply a b c) = [10, encodeArg a, encodeArg b, encodeArg c] ∧
    encode (.modulo a b c) = [11, encodeArg a, encodeArg b, encodeArg c] ∧
    encode (.bitAnd a b c) = [12, encodeArg a, encodeArg b, encodeArg c] ∧
    encode (.bitOr a b c) = [13, encodeArg a, encodeArg b, encodeArg c] ∧
    encode (.not a b) = [14, encodeArg a, encodeArg b] ∧
    encode (.readMemory a b) = [15, encodeArg a, encodeArg b] ∧
    encode (.writeMemory a b) = [16, encodeArg a, encodeArg b] ∧
    encode (.call a) = [17, encodeArg a] ∧ encode .ret = [18] ∧
    encode (.output a) = [19, encodeArg a] ∧ encode (.input a) = [20, encodeArg a] ∧
    encode .noop = [21]

/-- 30_encoding.md R63: the three ranges of an argument word. -/
def Obligations.ArgumentWordRanges : Prop :=
  ∀ w : Cell16,
    (w.toNat ≤ 32767 → decodeArg w = .ok (.literal w)) ∧
    (32768 ≤ w.toNat → w.toNat ≤ 32775 → decodeArg w = .ok (.register (w.toNat - 32768))) ∧
    (32776 ≤ w.toNat → decodeArg w = .error .invalidArgument)

/-- 30_encoding.md R64 (which the spec derives from R63): the same by bits. -/
def Obligations.ArgumentWordBitFields : Prop :=
  ∀ w : Cell16,
    (w.extractLsb' 15 1 = 0 →
      decodeArg w = .ok (.literal ((w.extractLsb' 0 15).setWidth 16))) ∧
    (w.extractLsb' 15 1 = 1 → w.extractLsb' 3 12 = 0 →
      decodeArg w = .ok (.register (w.extractLsb' 0 3).toNat)) ∧
    (w.extractLsb' 15 1 = 1 → w.extractLsb' 3 12 ≠ 0 → decodeArg w = .error .invalidArgument)

/-- 30_encoding.md R60, R65: the opcode word alone fixes the number of argument words, as the arity table
lists it by opcode number. -/
def Obligations.ArityIsFixedByTheOpcodeWord : Prop :=
  ∀ (w : Cell16) (ws : List Cell16) (i : Instr) (rest : List Cell16),
    decode (w :: ws) = .ok (i, rest) →
    i.opcode = w.toNat ∧ ws.length = i.arity + rest.length ∧
    (i.arity = 0 ↔ w.toNat ∈ [0, 18, 21]) ∧ (i.arity = 1 ↔ w.toNat ∈ [2, 3, 6, 17, 19, 20]) ∧
    (i.arity = 2 ↔ w.toNat ∈ [1, 7, 8, 14, 15, 16]) ∧
    (i.arity = 3 ↔ w.toNat ∈ [4, 5, 9, 10, 11, 12, 13])

/-- 30_encoding.md R63, R66: instruction words written out from them decode to the instructions they stand for. The
first two stand in 95_test_vectors.md S8 (Part 1), `16 7 72` in P4 and `7 32769 13` in P5 (Part 4), `18` in T14
(Part 2); `20 32775` stands nowhere in the spec and is written out here. The opcode numbers 7, 16, 18 and 20 rest on
the spec's decision D1 (log 11). -/
def Obligations.SpecWordsDecodeToTheirInstructions : Prop :=
  decode [9, 32768, 32769, 4, 19, 32768, 0] =
      .ok (.add (.register 0) (.register 1) (.literal 4), [19, 32768, 0]) ∧
    decode [19, 32768, 0] = .ok (.output (.register 0), [0]) ∧
    decode [16, 7, 72] = .ok (.writeMemory (.literal 7) (.literal 72), []) ∧
    decode [7, 32769, 13] = .ok (.jumpIfTrue (.register 1) (.literal 13), []) ∧
    decode [18] = .ok (.ret, []) ∧ decode [20, 32775] = .ok (.input (.register 7), [])

/-! ## The step -/

/-- 40_step_cycle.md R80, R94: a running machine executes the instruction it decodes at pc, and the step adds
nothing around it. -/
def Obligations.StepExecutesTheDecodedInstruction : Prop :=
  ∀ (s : State) (i : Instr) (rest : List Cell16),
    s.status = .running → decode s.fetchCells = .ok (i, rest) → step s = exec i s

/-- 40_step_cycle.md R81 to R84, R94: where the cells from pc on are the words of a well-formed instruction,
the step executes that instruction. -/
def Obligations.StepExecutesTheInstructionStoredAtPc : Prop :=
  ∀ (s : State) (i : Instr),
    s.status = .running → i.wf = true →
    (∀ (k : Nat) (w : Cell16), (encode i)[k]? = some w → s.mem.read (s.pc.toNat + k) = some w) →
    step s = exec i s

/-- 40_step_cycle.md R92 (with D11): in a terminal state nothing ever changes again, however many steps are
asked for. -/
def Obligations.TerminalStatesAreAbsorbing : Prop :=
  ∀ (s : State) (n : Nat), s.Over → core.run n s = .next s

/-- 40_step_cycle.md R89, 60_exceptions.md R172, R173 (with D10, D20): a step from Running ends in exactly one of
three ways: an error or a halt, which write the status only, or the success of the instruction at pc, which leaves
the status Running. A success has written no register but that instruction's destination, no memory but the cell
that a WriteMemory resolves to, at most one stack entry, and has made at most one input or output transaction. -/
def Obligations.StepEndsInOneOfThreeWays : Prop :=
  ∀ s t : State, s.status = .running → step s = .next t →
    (∃ k, t = { s with status := .errored k }) ∨ (∃ r, t = { s with status := .halted r }) ∨
    ∃ i, s.instrAt i ∧ t.status = .running ∧
      ((i.dest? = none ∧ t.regs = s.regs) ∨
        ∃ (d : Fin 8) (v : Cell16), i.dest? = some (.register d.val) ∧ t.regs = s.regs.set d v) ∧
      (∀ (a b : Arg) (addr v : Cell16), i = .writeMemory a b → resolve a s.regs = .ok addr →
        resolve b s.regs = .ok v → t.mem = s.mem.write addr v) ∧
      ((∀ a b, i ≠ .writeMemory a b) → t.mem = s.mem) ∧
      (t.stack = s.stack ∨ (∃ v, t.stack = v :: s.stack) ∨ ∃ v, s.stack = v :: t.stack) ∧
      ((t.outTrace = s.outTrace ∧ t.inTaken = s.inTaken ∧ t.inPending = s.inPending) ∨
        (t.inTaken = s.inTaken ∧ t.inPending = s.inPending ∧
          ∃ v, t.outTrace = s.outTrace ++ [v]) ∨
        (t.outTrace = s.outTrace ∧ t.inPending = s.inPending.tail ∧
          ∃ c, t.inTaken = s.inTaken ++ [c]))

/-- 40_step_cycle.md R94: every step answers a next state; no state makes the machine stop outside its own
status (log 6). -/
def Obligations.EveryStepAnswersANextState : Prop :=
  ∀ s : State, ∃ t, step s = .next t

/-- 40_step_cycle.md R90: the pc a successful execution commits, and where it stays below the top of the
address space (10_state.md R25, D6). -/
def Obligations.CommittedPcOfEveryInstruction : Prop :=
  (∀ (i : Instr) (s t : State), s.status = .running → exec i s = .next t → t.status = .running →
    match i with
    | .jump a => ∃ v, resolve a s.regs = .ok v ∧ t.pc = v.setWidth 17
    | .jumpIfTrue a b => ∃ v p, resolve a s.regs = .ok v ∧ resolve b s.regs = .ok p ∧
        t.pc = if v.toNat = 0 then s.pc + 3 else p.setWidth 17
    | .jumpIfFalse a b => ∃ v p, resolve a s.regs = .ok v ∧ resolve b s.regs = .ok p ∧
        t.pc = if v.toNat = 0 then p.setWidth 17 else s.pc + 3
    | .call a => ∃ v, resolve a s.regs = .ok v ∧ t.pc = v.setWidth 17
    | .ret => ∃ v, s.stack = v :: t.stack ∧ t.pc = v.setWidth 17
    | .halt => False
    | .set _ _ | .push _ | .pop _ | .equal _ _ _ | .greaterThan _ _ _ | .add _ _ _
    | .multiply _ _ _ | .modulo _ _ _ | .bitAnd _ _ _ | .bitOr _ _ _ | .not _ _
    | .readMemory _ _ | .writeMemory _ _ | .output _ | .input _ | .noop =>
        t.pc = s.pc + BitVec.ofNat 17 (1 + i.arity)) ∧
  ∀ (i : Instr) (s : State), s.Inv → s.instrAt i → s.pc.toNat + 1 + i.arity ≤ 65536

/-- 20_memory.md R44, 10_state.md R25: every step keeps memory in its canonical form with at most 65536 cells and
the pc in 0..65536. -/
def Obligations.EveryStepKeepsMemoryCanonicalAndPcInRange : Prop :=
  ∀ s t : State, s.Inv → step s = .next t → t.Inv

/-- The invariant holds at reset and after construction from any image. The canonical form of memory in it is the
model's choice (log 1), and so is State.reset as the construction from the empty image (log 5); the bound on pc is
the spec's decision D6 (10_state.md R25), the bound on the extent is 20_memory.md R44. -/
def Obligations.ResetAndConstructionMeetTheInvariant : Prop :=
  State.reset.Inv ∧ ∀ (image : List Cell16) (s : State), construct image = .ok s → s.Inv

/-- 60_exceptions.md R185 (1) to (4), with 40_step_cycle.md R81, R82, R83, R86 (D4, D9, D19): the first test that
fails decides, and nothing but the status changes. `n` is the arity of the opcode word and `k` counts the
argument words from 0. -/
def Obligations.FirstFailingTestDecidesTheStep : Prop :=
  ∀ s : State, s.status = .running →
    (s.mem.extent ≤ s.pc.toNat → step s = .next { s with status := .halted .noMoreInstructions }) ∧
    (∀ w : Cell16, s.mem.read s.pc.toNat = some w → 21 < w.toNat →
      step s = .next { s with status := .errored .invalidOpcode }) ∧
    (∀ (w : Cell16) (n k : Nat), s.mem.read s.pc.toNat = some w → arityTable[w.toNat]? = some n →
      k < n →
      (∀ j < k, ∃ v : Cell16, s.mem.read (s.pc.toNat + 1 + j) = some v ∧ v.toNat ≤ 32775) →
      (s.mem.read (s.pc.toNat + 1 + k) = none →
        step s = .next { s with status := .errored .memoryOutOfRange }) ∧
      (∀ v : Cell16, s.mem.read (s.pc.toNat + 1 + k) = some v → 32776 ≤ v.toNat →
        step s = .next { s with status := .errored .invalidArgument })) ∧
    (∀ (i : Instr) (w : Cell16), s.instrAt i → i.dest? = some (.literal w) →
      step s = .next { s with status := .errored .invalidRegister })

/-- 30_encoding.md R68: every opcode word above 21 is illegal in the same way, before any argument word is read
and before any state changes. -/
def Obligations.OpcodeWordsAbove21AreIllegal : Prop :=
  ∀ (w : Cell16) (ws : List Cell16),
    (decode (w :: ws) = .error .invalidOpcode ↔ 22 ≤ w.toNat) ∧
    ∀ s : State, s.status = .running → s.mem.read s.pc.toNat = some w → 22 ≤ w.toNat →
      step s = .next { s with status := .errored .invalidOpcode }

/-- 20_memory.md R44: the extent never shrinks, only WriteMemory changes it, it stays within the address space,
and a cell that exists goes on existing. -/
def Obligations.ExtentOnlyGrows : Prop :=
  (∀ (image : List Cell16) (s : State), construct image = .ok s → s.mem.extent = image.length) ∧
  ∀ s t : State, step s = .next t →
    s.mem.extent ≤ t.mem.extent ∧
    (t.mem.extent ≠ s.mem.extent → ∃ a b, s.instrAt (.writeMemory a b)) ∧
    (s.mem.extent ≤ 65536 → t.mem.extent ≤ 65536) ∧
    ∀ k : Nat, (s.mem.read k).isSome → (t.mem.read k).isSome

/-! ## Frames over all instructions -/

/-- 10_state.md R22: a register other than the destination keeps its value under every instruction, and the
instructions with a destination are the twelve storage operations. -/
def Obligations.OnlyTheDestinationRegisterChanges : Prop :=
  ∀ (i : Instr) (s t : State), exec i s = .next t →
    (∀ d : Fin 8, i.dest? ≠ some (.register d.val) → t.regs[d] = s.regs[d]) ∧
    (i.dest?.isSome ↔ i.opClass = .storage) ∧ (i.opClass = .controlFlow → t.regs = s.regs)

/-- 20_memory.md R40, R55: an instruction other than WriteMemory leaves every cell and the extent as they are. -/
def Obligations.OnlyWriteMemoryChangesMemory : Prop :=
  ∀ (i : Instr) (s t : State), exec i s = .next t → (∀ a b, i ≠ .writeMemory a b) →
    t.mem.extent = s.mem.extent ∧ ∀ k : Nat, t.mem.read k = s.mem.read k

/-- 10_state.md R26: the stack is reached only at its top and only by Push, Pop, Call and Return. -/
def Obligations.OnlyPushPopCallReturnTouchTheStack : Prop :=
  ∀ (i : Instr) (s t : State), exec i s = .next t →
    match i with
    | .push _ | .call _ => t.stack = s.stack ∨ ∃ v, t.stack = v :: s.stack
    | .pop _ | .ret => t.stack = s.stack ∨ ∃ v, s.stack = v :: t.stack
    | .halt | .set _ _ | .equal _ _ _ | .greaterThan _ _ _ | .jump _ | .jumpIfTrue _ _
    | .jumpIfFalse _ _ | .add _ _ _ | .multiply _ _ _ | .modulo _ _ _ | .bitAnd _ _ _
    | .bitOr _ _ _ | .not _ _ | .readMemory _ _ | .writeMemory _ _ | .output _ | .input _
    | .noop => t.stack = s.stack

/-- 45_system_io.md R161, R162, 10_state.md R34: only Input asks the input collaborator, only Output calls the
output collaborator, and neither record ever loses an entry. -/
def Obligations.OnlyInputAndOutputReachTheCollaborators : Prop :=
  ∀ (i : Instr) (s t : State), exec i s = .next t →
    ((∀ a, i ≠ .input a) → t.inPending = s.inPending ∧ t.inTaken = s.inTaken) ∧
    ((∀ a, i ≠ .output a) → t.outTrace = s.outTrace) ∧
    s.inTaken <+: t.inTaken ∧ s.outTrace <+: t.outTrace

/-- 45_system_io.md R162, 10_state.md R34: what has been handed to the output collaborator never influences the
machine: a longer history only stays in front of the trace. -/
def Obligations.OutputHistoryNeverInfluencesTheMachine : Prop :=
  ∀ (s t : State) (history : List Cell16), step s = .next t →
    step { s with outTrace := history ++ s.outTrace } =
      .next { t with outTrace := history ++ t.outTrace }

/-! ## Errors and halts -/

/-- 60_exceptions.md R175 to R181, R184 (with D2, D4, D7, D9): for each of the nine error kinds, exactly which steps
end in it. InvalidLiteral never occurs; MemoryOutOfRange comes neither from the fetch of an opcode word nor from a
WriteMemory (R180). -/
def Obligations.ErrorKindsComeFromTheirInstructionsOnly : Prop :=
  ∀ s t : State, s.Inv → s.status = .running → step s = .next t →
    (t.status = .errored .invalidOpcode ↔
      ∃ w : Cell16, s.mem.read s.pc.toNat = some w ∧ 22 ≤ w.toNat) ∧
    (t.status = .errored .invalidArgument ↔
      ∃ (k : Nat) (v : Cell16), s.reachesArgument k ∧
        s.mem.read (s.pc.toNat + 1 + k) = some v ∧ 32776 ≤ v.toNat) ∧
    (t.status = .errored .memoryOutOfRange ↔
      (∃ k, s.reachesArgument k ∧ s.mem.read (s.pc.toNat + 1 + k) = none) ∨
      ∃ d b addr, s.instrAt (.readMemory (.register d) b) ∧ resolve b s.regs = .ok addr ∧
        s.mem.extent ≤ addr.toNat) ∧
    (s.mem.extent ≤ s.pc.toNat ∨ (∃ a b, s.instrAt (.writeMemory a b)) →
      t.status ≠ .errored .memoryOutOfRange) ∧
    t.status ≠ .errored .invalidLiteral ∧
    (t.status = .errored .invalidRegister ↔
      ∃ i w, s.instrAt i ∧ i.dest? = some (.literal w)) ∧
    (t.status = .errored .stackExhausted ↔
      ∃ d, s.instrAt (.pop (.register d)) ∧ s.stack = []) ∧
    (t.status = .errored .arithmeticError ↔
      ∃ d b c, s.instrAt (.modulo (.register d) b c) ∧ resolve c s.regs = .ok 0) ∧
    (t.status = .errored .ioError ↔
      ∃ d, s.instrAt (.input (.register d)) ∧ s.nextAnswer = .fail) ∧
    (t.status = .errored .returnAddressOverflow ↔
      ∃ a, s.instrAt (.call a) ∧ s.pc.toNat = 65534)

/-- 60_exceptions.md R182, R183 (with D5): which steps end in which halt. -/
def Obligations.HaltReasonsAndTheirCauses : Prop :=
  ∀ s t : State, s.status = .running → step s = .next t →
    (t.status = .halted .noMoreInstructions ↔ s.mem.extent ≤ s.pc.toNat) ∧
    (t.status = .halted .machineHalted ↔
      s.instrAt .halt ∨ (s.instrAt .ret ∧ s.stack = []))

/-- 40_step_cycle.md R86 (D9): a Literal as destination ends the step before any operand is resolved and before
any side effect, for every Literal, in all twelve storage operations. -/
def Obligations.LiteralDestinationRaisesInvalidRegister : Prop :=
  ∀ (i : Instr) (w : Cell16) (s : State), i.dest? = some (.literal w) →
    exec i s = .next { s with status := .errored .invalidRegister }

/-- 60_exceptions.md R190, and the code column of R170 (D16). -/
def Obligations.RunResultAndStatusCodes : Prop :=
  (∀ r, Status.result? (.halted r) = some (.ok ())) ∧
  (∀ k, Status.result? (.errored k) = some (.error k)) ∧ Status.result? .running = none ∧
  Status.code .running = 0 ∧ Status.code (.halted .machineHalted) = 1 ∧
  Status.code (.halted .noMoreInstructions) = 2 ∧ Status.code (.errored .invalidOpcode) = 3 ∧
  Status.code (.errored .invalidArgument) = 4 ∧ Status.code (.errored .invalidLiteral) = 5 ∧
  Status.code (.errored .invalidRegister) = 6 ∧ Status.code (.errored .stackExhausted) = 7 ∧
  Status.code (.errored .arithmeticError) = 8 ∧ Status.code (.errored .memoryOutOfRange) = 9 ∧
  Status.code (.errored .ioError) = 10 ∧ Status.code (.errored .returnAddressOverflow) = 11

/-- 40_step_cycle.md R91, R92: stepping only while Running is the same as asking for every step, and a run that
ended early does not change when more steps are allowed. -/
def Obligations.RunIsRepeatedStepUntilTerminal : Prop :=
  ∀ (n m : Nat) (s t : State), runFor n s = core.run n s ∧
    (runFor n s = .next t → t.Over → runFor (n + m) s = .next t)

/-! ## Operands -/

/-- 40_step_cycle.md R87 and the two checks of R88: what each operand form resolves to. -/
def Obligations.ResolvedValueOfEveryOperandForm : Prop :=
  ∀ regs : Vector Cell16 8,
    (∀ w : Cell16, w.toNat ≤ 32767 → resolve (.literal w) regs = .ok w) ∧
    (∀ w : Cell16, 32767 < w.toNat → resolve (.literal w) regs = .error .invalidLiteral) ∧
    (∀ d : Fin 8, resolve (.register d.val) regs = .ok regs[d]) ∧
    (∀ i : Nat, 7 < i → resolve (.register i) regs = .error .invalidRegister)

/-! ## Move and stack -/

/-- 41_move_and_stack.md R100, every source form; the Literal destination is
`LiteralDestinationRaisesInvalidRegister`. -/
def Obligations.SetCopiesTheSource : Prop :=
  ∀ (d : Fin 8) (b : Arg) (v : Cell16) (s : State), resolve b s.regs = .ok v →
    exec (.set (.register d.val) b) s =
      .next { s with regs := s.regs.set d v, pc := s.pc + 3 }

/-- 41_move_and_stack.md R101. -/
def Obligations.PushAddsTheSourceOnTop : Prop :=
  ∀ (a : Arg) (v : Cell16) (s : State), resolve a s.regs = .ok v →
    exec (.push a) s = .next { s with stack := v :: s.stack, pc := s.pc + 2 }

/-- 41_move_and_stack.md R102: the pop, and the empty stack. -/
def Obligations.PopMovesTheTopOrRaisesStackExhausted : Prop :=
  ∀ (d : Fin 8) (s : State),
    (∀ (v : Cell16) (rest : List Cell16), s.stack = v :: rest →
      exec (.pop (.register d.val)) s =
        .next { s with regs := s.regs.set d v, stack := rest, pc := s.pc + 2 }) ∧
    (s.stack = [] →
      exec (.pop (.register d.val)) s = .next { s with status := .errored .stackExhausted })

/-- 41_move_and_stack.md R103: N pushes and then N pops leave the stack as it was and deliver the values in
reverse order, a later pop winning where a destination repeats. -/
def Obligations.PushesThenPopsDeliverInReverse : Prop :=
  ∀ (ops : List Arg) (vals : List Cell16) (ds : List (Fin 8)) (s : State),
    List.Forall₂ (fun a v => resolve a s.regs = .ok v) ops vals → ds.length = ops.length →
    execAll (ops.map Instr.push ++ ds.map (fun d => Instr.pop (.register d.val))) s =
      .next { s with
        regs := (ds.zip vals.reverse).foldl (fun r p => r.set p.1 p.2) s.regs,
        pc := s.pc + BitVec.ofNat 17 (4 * ops.length) }

/-! ## ALU. Operands are full 16-bit values (D8 for those above 32767). -/

/-- 42_alu.md R111. -/
def Obligations.EqualWritesOneOrZero : Prop :=
  ∀ (d : Fin 8) (b c : Arg) (x y : Cell16) (s : State),
    resolve b s.regs = .ok x → resolve c s.regs = .ok y →
    exec (.equal (.register d.val) b c) s =
      .next { s with regs := s.regs.set d (if x.toNat = y.toNat then 1 else 0), pc := s.pc + 4 }

/-- 42_alu.md R112, unsigned. -/
def Obligations.GreaterThanWritesOneOrZero : Prop :=
  ∀ (d : Fin 8) (b c : Arg) (x y : Cell16) (s : State),
    resolve b s.regs = .ok x → resolve c s.regs = .ok y →
    exec (.greaterThan (.register d.val) b c) s =
      .next { s with regs := s.regs.set d (if y.toNat < x.toNat then 1 else 0), pc := s.pc + 4 }

/-- 42_alu.md R113. -/
def Obligations.AddWritesTheSumModulo32768 : Prop :=
  ∀ (d : Fin 8) (b c : Arg) (x y : Cell16) (s : State),
    resolve b s.regs = .ok x → resolve c s.regs = .ok y →
    exec (.add (.register d.val) b c) s =
      .next { s with
        regs := s.regs.set d (BitVec.ofNat 16 ((x.toNat + y.toNat) % 32768)), pc := s.pc + 4 }

/-- 42_alu.md R114. -/
def Obligations.MultiplyWritesTheProductModulo32768 : Prop :=
  ∀ (d : Fin 8) (b c : Arg) (x y : Cell16) (s : State),
    resolve b s.regs = .ok x → resolve c s.regs = .ok y →
    exec (.multiply (.register d.val) b c) s =
      .next { s with
        regs := s.regs.set d (BitVec.ofNat 16 ((x.toNat * y.toNat) % 32768)), pc := s.pc + 4 }

/-- 42_alu.md R115: the remainder, and the zero divisor. -/
def Obligations.ModuloWritesTheRemainderOrRaisesArithmeticError : Prop :=
  ∀ (d : Fin 8) (b c : Arg) (x y : Cell16) (s : State),
    resolve b s.regs = .ok x → resolve c s.regs = .ok y →
    (y.toNat ≠ 0 → exec (.modulo (.register d.val) b c) s =
      .next { s with
        regs := s.regs.set d (BitVec.ofNat 16 (x.toNat % y.toNat % 32768)), pc := s.pc + 4 }) ∧
    (y.toNat = 0 → exec (.modulo (.register d.val) b c) s =
      .next { s with status := .errored .arithmeticError })

/-- 42_alu.md R116, bit by bit: bit 15 of the result is cleared. -/
def Obligations.BitAndWritesTheConjunctionOfTheLow15Bits : Prop :=
  ∀ (d : Fin 8) (b c : Arg) (x y : Cell16) (s : State),
    resolve b s.regs = .ok x → resolve c s.regs = .ok y →
    ∃ v : Cell16, exec (.bitAnd (.register d.val) b c) s =
        .next { s with regs := s.regs.set d v, pc := s.pc + 4 } ∧
      ∀ k < 16, v.getLsbD k = (decide (k < 15) && (x.getLsbD k && y.getLsbD k))

/-- 42_alu.md R117, bit by bit: bit 15 of the result is cleared. -/
def Obligations.BitOrWritesTheDisjunctionOfTheLow15Bits : Prop :=
  ∀ (d : Fin 8) (b c : Arg) (x y : Cell16) (s : State),
    resolve b s.regs = .ok x → resolve c s.regs = .ok y →
    ∃ v : Cell16, exec (.bitOr (.register d.val) b c) s =
        .next { s with regs := s.regs.set d v, pc := s.pc + 4 } ∧
      ∀ k < 16, v.getLsbD k = (decide (k < 15) && (x.getLsbD k || y.getLsbD k))

/-- 42_alu.md R118: 32767 less the low 15 bits, so that twice restores a value in 0..32767. -/
def Obligations.NotWritesTheFifteenBitComplement : Prop :=
  ∀ (d : Fin 8) (b : Arg) (x : Cell16) (s : State), resolve b s.regs = .ok x →
    exec (.not (.register d.val) b) s =
      .next { s with
        regs := s.regs.set d (BitVec.ofNat 16 (32767 - x.toNat % 32768)), pc := s.pc + 3 } ∧
    ∃ t u : State, exec (.not (.register d.val) b) s = .next t ∧
      exec (.not (.register d.val) (.register d.val)) t = .next u ∧
      u.regs[d] = BitVec.ofNat 16 (x.toNat % 32768)

/-- 42_alu.md R110: a successful ALU instruction leaves a value in 0..32767 in its destination, whatever its
operands. -/
def Obligations.AluResultsFitFifteenBits : Prop :=
  ∀ (i : Instr) (s t : State), i.opcode ∈ [4, 5, 9, 10, 11, 12, 13, 14] → s.status = .running →
    exec i s = .next t → t.status = .running →
    ∃ d : Fin 8, i.dest? = some (.register d.val) ∧ t.regs[d].toNat ≤ 32767

/-! ## Control transfer -/

/-- 43_control_transfer.md R130. -/
def Obligations.JumpCommitsItsTarget : Prop :=
  ∀ (a : Arg) (p : Cell16) (s : State), resolve a s.regs = .ok p →
    exec (.jump a) s = .next { s with pc := p.setWidth 17 }

/-- 43_control_transfer.md R131: every nonzero condition jumps. -/
def Obligations.JumpIfTrueJumpsOnNonzero : Prop :=
  ∀ (a b : Arg) (v p : Cell16) (s : State),
    resolve a s.regs = .ok v → resolve b s.regs = .ok p →
    (v.toNat ≠ 0 → exec (.jumpIfTrue a b) s = .next { s with pc := p.setWidth 17 }) ∧
    (v.toNat = 0 → exec (.jumpIfTrue a b) s = .next { s with pc := s.pc + 3 })

/-- 43_control_transfer.md R132 (D8 for wide conditions). -/
def Obligations.JumpIfFalseJumpsOnZero : Prop :=
  ∀ (a b : Arg) (v p : Cell16) (s : State),
    resolve a s.regs = .ok v → resolve b s.regs = .ok p →
    (v.toNat = 0 → exec (.jumpIfFalse a b) s = .next { s with pc := p.setWidth 17 }) ∧
    (v.toNat ≠ 0 → exec (.jumpIfFalse a b) s = .next { s with pc := s.pc + 3 })

/-- 43_control_transfer.md R133 (D7 for the overflow). -/
def Obligations.CallPushesTheReturnAddress : Prop :=
  ∀ (a : Arg) (p : Cell16) (s : State), resolve a s.regs = .ok p →
    (s.pc.toNat + 2 ≤ 65535 → ∃ r : Cell16, r.toNat = s.pc.toNat + 2 ∧
      exec (.call a) s = .next { s with stack := r :: s.stack, pc := p.setWidth 17 }) ∧
    (65535 < s.pc.toNat + 2 →
      exec (.call a) s = .next { s with status := .errored .returnAddressOverflow })

/-- 43_control_transfer.md R134: the empty stack is a clean halt (D20 for the pc, which stays). -/
def Obligations.ReturnPopsTheNewPcOrHalts : Prop :=
  ∀ s : State,
    (∀ (v : Cell16) (rest : List Cell16), s.stack = v :: rest →
      exec .ret s = .next { s with stack := rest, pc := v.setWidth 17 }) ∧
    (s.stack = [] → exec .ret s = .next { s with status := .halted .machineHalted })

/-- 43_control_transfer.md R133 (the source's testable property): Call and then Return resume at the instruction
after the Call, with everything else as it was. -/
def Obligations.CallThenReturnResumesAfterTheCall : Prop :=
  ∀ (a : Arg) (p : Cell16) (s : State), resolve a s.regs = .ok p → s.pc.toNat + 2 ≤ 65535 →
    execAll [.call a, .ret] s = .next { s with pc := s.pc + 2 }

/-! ## Memory instructions -/

/-- 44_memory_ops.md R145 (D2, D8): the cell moves unchanged; an address at or beyond the extent is an error. -/
def Obligations.ReadMemoryCopiesTheCellOrRaisesMemoryOutOfRange : Prop :=
  ∀ (d : Fin 8) (b : Arg) (addr : Cell16) (s : State), resolve b s.regs = .ok addr →
    (addr.toNat < s.mem.extent → ∃ v : Cell16, s.mem.read addr.toNat = some v ∧
      exec (.readMemory (.register d.val) b) s =
        .next { s with regs := s.regs.set d v, pc := s.pc + 3 }) ∧
    (s.mem.extent ≤ addr.toNat → exec (.readMemory (.register d.val) b) s =
      .next { s with status := .errored .memoryOutOfRange })

/-- 20_memory.md R43, the write that 44_memory_ops.md R146 makes: the addressed cell holds the data, every other existing cell reads
as before, cells created below the address read 0, and nothing else changes. -/
def Obligations.WriteMemoryStoresAndGrows : Prop :=
  ∀ (a b : Arg) (addr v : Cell16) (s : State),
    resolve a s.regs = .ok addr → resolve b s.regs = .ok v →
    ∃ t : State, exec (.writeMemory a b) s = .next t ∧
      t = { s with mem := t.mem, pc := s.pc + 3 } ∧
      t.mem.extent = (if addr.toNat < s.mem.extent then s.mem.extent else addr.toNat + 1) ∧
      t.mem.read addr.toNat = some v ∧
      (∀ k : Nat, k ≠ addr.toNat → k < s.mem.extent → t.mem.read k = s.mem.read k) ∧
      (∀ k : Nat, s.mem.extent ≤ k → k < addr.toNat → t.mem.read k = some 0) ∧
      (∀ k : Nat, s.mem.extent ≤ k → addr.toNat < k → t.mem.read k = none)

/-- 20_memory.md R53: a store into the words of the next instruction is what the next fetch reads, with no other
action; `k` counts the words of the next fetch from 0. -/
def Obligations.StoreIsSeenByTheNextFetch : Prop :=
  ∀ (s t : State) (a b : Arg) (addr v : Cell16) (k : Nat),
    s.status = .running → s.instrAt (.writeMemory a b) →
    resolve a s.regs = .ok addr → resolve b s.regs = .ok v →
    addr.toNat = s.pc.toNat + 3 + k → k < 4 → step s = .next t →
    t.status = .running ∧ t.fetchCells[k]? = some v

/-! ## System and input/output -/

/-- 45_system_io.md R155 (D20 for the pc, which stays). -/
def Obligations.HaltWritesOnlyTheStatus : Prop :=
  ∀ s : State, exec .halt s = .next { s with status := .halted .machineHalted }

/-- 45_system_io.md R156. -/
def Obligations.NoopOnlyAdvancesThePc : Prop :=
  ∀ s : State, exec .noop s = .next { s with pc := s.pc + 1 } ∧ encode .noop = [21]

/-- 45_system_io.md R157 (D14): one 16-bit value is handed over. -/
def Obligations.OutputHandsOverTheSource : Prop :=
  ∀ (a : Arg) (v : Cell16) (s : State), resolve a s.regs = .ok v →
    exec (.output a) s = .next { s with outTrace := s.outTrace ++ [v], pc := s.pc + 2 }

/-- 45_system_io.md R158 (D12, D23): whatever the collaborator answers, pending in State or free (log 3). -/
def Obligations.InputWritesTheCharacterOrRaisesIOError : Prop :=
  ∀ (d : Fin 8) (s : State),
    (∀ c : Value15, s.nextAnswer = .char c → exec (.input (.register d.val)) s =
      .next { s with
        regs := s.regs.set d (BitVec.ofNat 16 c.toNat), pc := s.pc + 2,
        inPending := s.inPending.tail, inTaken := s.inTaken ++ [c] }) ∧
    (s.nextAnswer = .fail →
      exec (.input (.register d.val)) s = .next { s with status := .errored .ioError }) ∧
    ∀ (a : InAnswer) (rest : List InAnswer), s.inPending = a :: rest → s.nextAnswer = a

/-! ## Wide values -/

/-- 10_state.md R29, amended by log 12: from a state without wide values, a step that neither reads a wide cell nor
pushes a wide return address leaves none, and stores none to memory. -/
def Obligations.NoWideValuesArise : Prop :=
  ∀ (s t : State) (i : Instr), s.NoWide → s.status = .running → s.instrAt i → step s = .next t →
    (∀ (a b : Arg) (addr v : Cell16), i = .readMemory a b → resolve b s.regs = .ok addr →
      s.mem.read addr.toNat = some v → Narrow v) →
    (∀ a : Arg, i = .call a → s.pc.toNat + 2 ≤ 32767) →
    t.NoWide ∧ ∀ (k : Nat) (v : Cell16), t.mem.read k = some v → ¬ Narrow v →
      s.mem.read k = some v

/-- Log 12: the last sentence of 10_state.md R29, which the spec derives, does not follow from R133. A Call at a pc
in 32766..65533 leaves pc + 2, a wide value, on top of the stack; and there is a state that meets the invariant and
holds no wide value in a register, on the stack or in memory at which such a Call is the next instruction. -/
def Obligations.CallCanPushAWideReturnAddress : Prop :=
  (∀ (s : State) (a : Arg) (p : Cell16), s.status = .running → s.instrAt (.call a) →
    resolve a s.regs = .ok p → 32766 ≤ s.pc.toNat → s.pc.toNat ≤ 65533 →
    ∃ (t : State) (r : Cell16), step s = .next t ∧ t.stack = r :: s.stack ∧
      r.toNat = s.pc.toNat + 2 ∧ ¬ Narrow r) ∧
  ∃ (s : State) (a : Arg) (p : Cell16), s.Inv ∧ s.NoWide ∧
    (∀ (k : Nat) (v : Cell16), s.mem.read k = some v → Narrow v) ∧ s.status = .running ∧
    s.instrAt (.call a) ∧ resolve a s.regs = .ok p ∧
    32766 ≤ s.pc.toNat ∧ s.pc.toNat ≤ 65533
end

