-- ==== Sys2Proof/Laws/Decode.lean ====
section
/-! SUPPORT. The small laws of the decoder and the encoder (30_encoding.md R60 to R67). -/

namespace Sys2Proof

@[simp] theorem encodeArg_literal (w : Cell16) : encodeArg (.literal w) = w := rfl

theorem encodeArg_register_toNat {i : Nat} (h : i ≤ 7) :
    (encodeArg (.register i)).toNat = 32768 + i := by
  simp only [encodeArg, Config.regBase, BitVec.toNat_ofNat]
  omega

/-- What decodes is well formed and encodes back. -/
theorem decodeArg_eq_ok {w : Cell16} {a : Arg} (h : decodeArg w = .ok a) :
    a.wf = true ∧ encodeArg a = w := by
  unfold decodeArg at h
  split at h
  · cases h
    exact ⟨by simpa [Arg.wf], rfl⟩
  · split at h
    · cases h
      simp only [Config.regBase]
      refine ⟨by simp only [Arg.wf, decide_eq_true_eq]; omega, ?_⟩
      apply BitVec.eq_of_toNat_eq
      rw [encodeArg_register_toNat (by omega)]
      omega
    · cases h

/-- A well-formed argument's word decodes to it. -/
theorem decodeArg_encodeArg {a : Arg} (h : a.wf = true) : decodeArg (encodeArg a) = .ok a := by
  cases a with
  | literal w =>
    have : w.toNat ≤ 32767 := by simpa [Arg.wf] using h
    simp [decodeArg, this]
  | register i =>
    have hi : i ≤ 7 := by simpa [Arg.wf] using h
    unfold decodeArg
    rw [encodeArg_register_toNat hi, if_neg (by omega), if_pos (by omega)]
    simp [Config.regBase]

theorem decodeArg_eq_error {w : Cell16} {e : DecodeError} (h : decodeArg w = .error e) :
    e = .invalidArgument ∧ 32776 ≤ w.toNat := by
  unfold decodeArg at h
  split at h
  · cases h
  · split at h
    · cases h
    · cases h
      exact ⟨rfl, by omega⟩

theorem takeArg_cons_ok {w : Cell16} {a : Arg} (h : decodeArg w = .ok a) (ws : List Cell16) :
    takeArg (w :: ws) = .ok (a, ws) := by simp [takeArg, h]

theorem takeArg_eq_ok {ws rest : List Cell16} {a : Arg} (h : takeArg ws = .ok (a, rest)) :
    ∃ w, ws = w :: rest ∧ decodeArg w = .ok a := by
  cases ws with
  | nil => cases h
  | cons w ws =>
    simp only [takeArg] at h
    split at h
    · cases h
      exact ⟨w, rfl, ‹_›⟩
    · cases h

/-- Everything a failed argument fetch can be. -/
theorem takeArg_eq_error {ws : List Cell16} {e : DecodeError} (h : takeArg ws = .error e) :
    (ws = [] ∧ e = .missingArgument) ∨
      ∃ w rest, ws = w :: rest ∧ 32776 ≤ w.toNat ∧ e = .invalidArgument := by
  cases ws with
  | nil => cases h; exact .inl ⟨rfl, rfl⟩
  | cons w ws =>
    simp only [takeArg] at h
    split at h
    · cases h
    · rename_i e' he
      obtain ⟨rfl, hw⟩ := decodeArg_eq_error he
      cases h
      exact .inr ⟨w, ws, rfl, hw, rfl⟩

theorem decode1_eq_ok {mk : Arg → Instr} {ws rest : List Cell16} {i : Instr}
    (h : decode1 mk ws = .ok (i, rest)) :
    ∃ a w, i = mk a ∧ ws = w :: rest ∧ decodeArg w = .ok a := by
  simp only [decode1] at h
  split at h
  · rename_i a r ha
    obtain ⟨w, rfl, hw⟩ := takeArg_eq_ok ha
    cases h
    exact ⟨a, w, rfl, rfl, hw⟩
  · cases h

theorem decode2_eq_ok {mk : Arg → Arg → Instr} {ws rest : List Cell16} {i : Instr}
    (h : decode2 mk ws = .ok (i, rest)) :
    ∃ a b w x, i = mk a b ∧ ws = w :: x :: rest ∧ decodeArg w = .ok a ∧ decodeArg x = .ok b := by
  simp only [decode2] at h
  split at h
  · rename_i a r ha
    obtain ⟨w, rfl, hw⟩ := takeArg_eq_ok ha
    obtain ⟨b, x, rfl, rfl, hx⟩ := decode1_eq_ok h
    exact ⟨a, b, w, x, rfl, rfl, hw, hx⟩
  · cases h

theorem decode3_eq_ok {mk : Arg → Arg → Arg → Instr} {ws rest : List Cell16} {i : Instr}
    (h : decode3 mk ws = .ok (i, rest)) :
    ∃ a b c w x y, i = mk a b c ∧ ws = w :: x :: y :: rest ∧
      decodeArg w = .ok a ∧ decodeArg x = .ok b ∧ decodeArg y = .ok c := by
  simp only [decode3] at h
  split at h
  · rename_i a r ha
    obtain ⟨w, rfl, hw⟩ := takeArg_eq_ok ha
    obtain ⟨b, c, x, y, rfl, rfl, hx, hy⟩ := decode2_eq_ok h
    exact ⟨a, b, c, w, x, y, rfl, rfl, hw, hx, hy⟩
  · cases h

theorem decode1_cons {mk : Arg → Instr} {w : Cell16} {a : Arg} (h : decodeArg w = .ok a)
    (rest : List Cell16) : decode1 mk (w :: rest) = .ok (mk a, rest) := by
  simp [decode1, takeArg_cons_ok h]

theorem decode2_cons {mk : Arg → Arg → Instr} {w : Cell16} {a : Arg} (h : decodeArg w = .ok a)
    (ws : List Cell16) : decode2 mk (w :: ws) = decode1 (mk a) ws := by
  simp [decode2, takeArg_cons_ok h]

theorem decode3_cons {mk : Arg → Arg → Arg → Instr} {w : Cell16} {a : Arg} (h : decodeArg w = .ok a)
    (ws : List Cell16) : decode3 mk (w :: ws) = decode2 (mk a) ws := by
  simp [decode3, takeArg_cons_ok h]

/-- The first of `n` argument words that ends the fetch with `e`: the `k`-th is missing or invalid, those before it
are there and valid (40_step_cycle.md R83). -/
def ArgsFail (n : Nat) (ws : List Cell16) (e : DecodeError) : Prop :=
  ∃ k < n, (∀ j < k, ∃ v : Cell16, ws[j]? = some v ∧ v.toNat ≤ 32775) ∧
    ((ws[k]? = none ∧ e = .missingArgument) ∨
      ∃ v : Cell16, ws[k]? = some v ∧ 32776 ≤ v.toNat ∧ e = .invalidArgument)

theorem argsFail_of_takeArg {ws : List Cell16} {e : DecodeError} (h : takeArg ws = .error e) (n : Nat) :
    ArgsFail (n + 1) ws e := by
  rcases takeArg_eq_error h with ⟨rfl, rfl⟩ | ⟨w, rest, rfl, hw, rfl⟩
  · exact ⟨0, by omega, by omega, .inl ⟨rfl, rfl⟩⟩
  · exact ⟨0, by omega, by omega, .inr ⟨w, rfl, hw, rfl⟩⟩

theorem ArgsFail.after {n : Nat} {ws rest : List Cell16} {a : Arg} {e : DecodeError}
    (ha : takeArg ws = .ok (a, rest)) (h : ArgsFail n rest e) : ArgsFail (n + 1) ws e := by
  obtain ⟨w, rfl, hw⟩ := takeArg_eq_ok ha
  obtain ⟨k, hk, hg, hb⟩ := h
  refine ⟨k + 1, by omega, fun j hj => ?_, hb⟩
  cases j with
  | zero =>
    refine ⟨w, rfl, ?_⟩
    by_contra hc
    unfold decodeArg at hw
    rw [if_neg (by omega), if_neg hc] at hw
    cases hw
  | succ j => exact hg j (by omega)

theorem decode1_eq_error {mk : Arg → Instr} {ws : List Cell16} {e : DecodeError}
    (h : decode1 mk ws = .error e) : ArgsFail 1 ws e := by
  simp only [decode1] at h
  split at h
  · cases h
  · cases h
    exact argsFail_of_takeArg ‹_› 0

theorem decode2_eq_error {mk : Arg → Arg → Instr} {ws : List Cell16} {e : DecodeError}
    (h : decode2 mk ws = .error e) : ArgsFail 2 ws e := by
  simp only [decode2] at h
  split at h
  · exact (decode1_eq_error h).after ‹_›
  · cases h
    exact argsFail_of_takeArg ‹_› 1

theorem decode3_eq_error {mk : Arg → Arg → Arg → Instr} {ws : List Cell16} {e : DecodeError}
    (h : decode3 mk ws = .error e) : ArgsFail 3 ws e := by
  simp only [decode3] at h
  split at h
  · exact (decode2_eq_error h).after ‹_›
  · cases h
    exact argsFail_of_takeArg ‹_› 2

/-- Everything a decode that fails after its opcode word was fetched can be (40_step_cycle.md R82, R83). -/
theorem decodeBody_eq_error {op : Nat} {ws : List Cell16} {e : DecodeError}
    (h : decodeBody op ws = .error e) :
    (21 < op ∧ e = .invalidOpcode) ∨ ∃ n, arityTable[op]? = some n ∧ ArgsFail n ws e := by
  by_cases hop : 21 < op
  · refine .inl ⟨hop, ?_⟩
    unfold decodeBody at h
    split at h <;> first | omega | (cases h; rfl)
  · refine .inr ?_
    have : op ≤ 21 := by omega
    interval_cases op <;> simp only [decodeBody, reduceCtorEq] at h <;>
      first
      | exact ⟨1, rfl, decode1_eq_error h⟩
      | exact ⟨2, rfl, decode2_eq_error h⟩
      | exact ⟨3, rfl, decode3_eq_error h⟩

/-- The opcode numbers are at most 21 (30_encoding.md R66), so each fits its word. -/
theorem Instr.opcode_le (i : Instr) : i.opcode ≤ 21 := by
  cases i <;> simp [Instr.opcode]

theorem Instr.opcode_word (i : Instr) : (BitVec.ofNat 16 i.opcode).toNat = i.opcode := by
  have := i.opcode_le
  rw [BitVec.toNat_ofNat]
  omega

theorem Instr.arity_eq_length_args (i : Instr) : i.arity = i.args.length := by cases i <;> rfl

theorem Instr.arityTable_opcode (i : Instr) : arityTable[i.opcode]? = some i.arity := by
  cases i <;> rfl

theorem encode_length (i : Instr) : (encode i).length = 1 + i.arity := by
  simp [encode, Instr.arity_eq_length_args, Nat.add_comm]

end Sys2Proof
end

