-- ==== Sys2Proof/Laws/Memory.lean ====
section
/-! SUPPORT. The laws of memory (20_memory.md R42 to R44): what a read gives after a write, that every operation keeps
the canonical form, and that memories in that form that read alike are equal. -/

namespace Sys2Proof.Machine

/-! ### Lists of cells -/

@[simp] theorem lookupCell_nil (k : Nat) : lookupCell k [] = 0 := rfl

theorem lookupCell_cons (k a : Nat) (w : Cell16) (rest : List (Nat × Cell16)) :
    lookupCell k ((a, w) :: rest) = if k = a then w else lookupCell k rest := rfl

theorem lookupCell_of_not_listed (k : Nat) (cells : List (Nat × Cell16))
    (h : ∀ c ∈ cells, c.1 ≠ k) : lookupCell k cells = 0 := by
  induction cells with
  | nil => rfl
  | cons c rest ih =>
    have hc : k ≠ c.1 := fun e => h c (by simp) e.symm
    simp [lookupCell, hc, ih fun c hc => h c (by simp [hc])]

/-- Filtering by address keeps what a kept address holds. -/
theorem lookupCell_filter (p : Nat → Bool) (k : Nat) (hk : p k = true) (cells : List (Nat × Cell16)) :
    lookupCell k (cells.filter fun c => p c.1) = lookupCell k cells := by
  induction cells with
  | nil => rfl
  | cons c rest ih =>
    by_cases hc : p c.1 = true
    · simp [hc, lookupCell, ih]
    · have : k ≠ c.1 := fun e => hc (e ▸ hk)
      simp [hc, lookupCell, this, ih]

/-- Filtering an address out leaves it unlisted. -/
theorem lookupCell_filter_out (p : Nat → Bool) (k : Nat) (hk : p k = false)
    (cells : List (Nat × Cell16)) : lookupCell k (cells.filter fun c => p c.1) = 0 := by
  apply lookupCell_of_not_listed
  intro c hc e
  simp_all [List.mem_filter]

theorem lookupCell_insertCell_same (k : Nat) (v : Cell16) (cells : List (Nat × Cell16)) :
    lookupCell k (insertCell k v cells) = v := by
  induction cells with
  | nil => simp [insertCell, lookupCell]
  | cons c rest ih =>
    simp only [insertCell]
    split
    · simp [lookupCell]
    · split
      · simp [lookupCell]
      · rename_i h; simp [lookupCell, h, ih]

theorem lookupCell_insertCell_other (k j : Nat) (hj : j ≠ k) (v : Cell16)
    (cells : List (Nat × Cell16)) : lookupCell j (insertCell k v cells) = lookupCell j cells := by
  induction cells with
  | nil => simp [insertCell, lookupCell, hj]
  | cons c rest ih =>
    simp only [insertCell]
    split
    · simp [lookupCell, hj]
    · split
      · rename_i h; subst h; simp [lookupCell, hj]
      · simp [lookupCell, ih]

theorem lookupCell_putCell_same (k : Nat) (v : Cell16) (cells : List (Nat × Cell16)) :
    lookupCell k (putCell k v cells) = v := by
  unfold putCell
  split
  · rename_i h
    rw [h]
    exact lookupCell_filter_out (fun a => a != k) k (by simp) cells
  · exact lookupCell_insertCell_same k v cells

theorem lookupCell_putCell_other (k j : Nat) (hj : j ≠ k) (v : Cell16) (cells : List (Nat × Cell16)) :
    lookupCell j (putCell k v cells) = lookupCell j cells := by
  unfold putCell
  split
  · exact lookupCell_filter (fun a => a != k) j (by simpa using hj) cells
  · exact lookupCell_insertCell_other k j hj v cells

theorem mem_insertCell {k : Nat} {v : Cell16} {cells : List (Nat × Cell16)} {c : Nat × Cell16}
    (h : c ∈ insertCell k v cells) : c = (k, v) ∨ c ∈ cells := by
  induction cells with
  | nil => simpa [insertCell] using h
  | cons d rest ih =>
    simp only [insertCell] at h
    split at h
    · simpa using h
    · split at h
      · simp only [List.mem_cons] at h ⊢
        tauto
      · simp only [List.mem_cons] at h ⊢
        rcases h with h | h
        · exact .inr (.inl h)
        · rcases ih h with h | h <;> simp [h]

theorem insertCell_rising (k : Nat) (v : Cell16) (cells : List (Nat × Cell16))
    (h : (cells.map Prod.fst).Pairwise (· < ·)) :
    ((insertCell k v cells).map Prod.fst).Pairwise (· < ·) := by
  induction cells with
  | nil => simp [insertCell]
  | cons c rest ih =>
    obtain ⟨a, w⟩ := c
    simp only [List.map_cons, List.pairwise_cons] at h
    simp only [insertCell]
    split
    · rename_i hka
      simp only [List.map_cons, List.pairwise_cons, List.mem_cons, forall_eq_or_imp]
      exact ⟨⟨hka, fun b hb => lt_trans hka (h.1 b hb)⟩, h⟩
    · split
      · rename_i e
        subst e
        simpa using h
      · rename_i h1 h2
        simp only [List.map_cons, List.pairwise_cons]
        refine ⟨fun b hb => ?_, ih h.2⟩
        obtain ⟨c, hc, rfl⟩ := List.mem_map.1 hb
        rcases mem_insertCell hc with rfl | hc
        · show a < k
          omega
        · exact h.1 _ (List.mem_map_of_mem hc)

theorem filter_rising (p : Nat × Cell16 → Bool) (cells : List (Nat × Cell16))
    (h : (cells.map Prod.fst).Pairwise (· < ·)) :
    ((cells.filter p).map Prod.fst).Pairwise (· < ·) :=
  h.sublist (List.filter_sublist.map Prod.fst)

/-! ### Read and write -/

namespace Memory

theorem read_eq_none_iff (m : Memory) (k : Nat) : m.read k = none ↔ m.extent ≤ k := by
  unfold read
  split <;> simp <;> omega

theorem read_isSome_iff (m : Memory) (k : Nat) : (m.read k).isSome ↔ k < m.extent := by
  unfold read
  split <;> simp_all

theorem lt_extent_of_read {m : Memory} {k : Nat} {v : Cell16} (h : m.read k = some v) :
    k < m.extent := (m.read_isSome_iff k).1 (by simp [h])

@[simp] theorem write_extent (m : Memory) (a v : Cell16) :
    (m.write a v).extent = max m.extent (a.toNat + 1) := rfl

@[simp] theorem read_write_same (m : Memory) (a v : Cell16) :
    (m.write a v).read a.toNat = some v := by
  have : a.toNat < max m.extent (a.toNat + 1) := by omega
  simp [read, write, this, lookupCell_putCell_same]

/-- A write leaves every other existing cell alone, creates the cells below its address as 0, and creates
nothing above it (20_memory.md R43). -/
theorem read_write_other (m : Memory) (a v : Cell16) (k : Nat) (hk : k ≠ a.toNat) :
    (m.write a v).read k =
      if k < m.extent then m.read k else if k < a.toNat then some 0 else none := by
  simp only [read, write, lookupCell_putCell_other a.toNat k hk]
  by_cases h1 : k < m.extent
  · have := lookupCell_filter (fun a => decide (a < m.extent)) k (by simpa using h1) m.cells
    simp [h1, this]
  · have := lookupCell_filter_out (fun a => decide (a < m.extent)) k (by simpa using h1) m.cells
    simp only [this, h1, if_false]
    by_cases h2 : k < a.toNat
    · simp [h2, show k < max m.extent (a.toNat + 1) by omega]
    · simp [h2, show ¬ k < max m.extent (a.toNat + 1) by omega]

theorem wf_write {m : Memory} (h : m.wf) (a v : Cell16) : (m.write a v).wf := by
  obtain ⟨h1, h2, h3⟩ := h
  have ha : a.toNat < 65536 := a.isLt
  have hr := filter_rising (fun c => decide (c.1 < m.extent)) m.cells h1
  refine ⟨?_, ?_, ?_⟩
  · simp only [write, putCell]
    split
    · exact filter_rising _ _ hr
    · exact insertCell_rising _ _ _ hr
  · intro c hc
    simp only [write, putCell] at hc
    split at hc
    · have hc := List.mem_of_mem_filter (List.mem_of_mem_filter hc)
      exact ⟨lt_of_lt_of_le (h2 c hc).1 (by simp), (h2 c hc).2⟩
    · rcases mem_insertCell hc with rfl | hc
      · simp_all
      · have hc := List.mem_of_mem_filter hc
        exact ⟨lt_of_lt_of_le (h2 c hc).1 (by simp), (h2 c hc).2⟩
  · simp only [write, Config.memMaxExtent] at *
    omega

theorem wf_writeFrom {m : Memory} (h : m.wf) (addr : Nat) (ws : List Cell16) :
    (m.writeFrom addr ws).wf := by
  induction ws generalizing m addr with
  | nil => exact h
  | cons w ws ih =>
    simp only [writeFrom]
    split
    · exact ih (wf_write h _ _) _
    · exact h

/-- Memories in canonical form with the same extent and the same readings are equal data. -/
theorem ext_of_wf {m n : Memory} (hm : m.wf) (hn : n.wf) (he : m.extent = n.extent)
    (hr : ∀ k, m.read k = n.read k) : m = n := by
  obtain ⟨mc, me⟩ := m
  obtain ⟨nc, ne⟩ := n
  simp only at he
  subst he
  have hl : ∀ k, lookupCell k mc = lookupCell k nc := by
    intro k
    by_cases hk : k < me
    · simpa [read, hk] using hr k
    · rw [lookupCell_of_not_listed k mc fun c hc e => hk (e ▸ (hm.2.1 c hc).1),
        lookupCell_of_not_listed k nc fun c hc e => hk (e ▸ (hn.2.1 c hc).1)]
  have aux : ∀ mc nc : List (Nat × Cell16), (mc.map Prod.fst).Pairwise (· < ·) →
      (nc.map Prod.fst).Pairwise (· < ·) → (∀ c ∈ mc, c.2 ≠ 0) → (∀ c ∈ nc, c.2 ≠ 0) →
      (∀ k, lookupCell k mc = lookupCell k nc) → mc = nc := by
    intro mc
    induction mc with
    | nil =>
      intro nc _ _ _ h2 hl
      cases nc with
      | nil => rfl
      | cons c rest =>
        have := hl c.1
        simp only [lookupCell, if_true] at this
        exact absurd this.symm (h2 c (by simp))
    | cons c rest ih =>
      intro nc hs1 hs2 h1 h2 hl
      cases nc with
      | nil =>
        have := hl c.1
        simp only [lookupCell, if_true] at this
        exact absurd this (h1 c (by simp))
      | cons d rest' =>
        simp only [List.map_cons, List.pairwise_cons] at hs1 hs2
        have below : ∀ (a : Nat) (l : List (Nat × Cell16)), (∀ b ∈ l.map Prod.fst, a < b) →
            ∀ k ≤ a, lookupCell k l = 0 := fun a l h k hk =>
          lookupCell_of_not_listed k l fun e he hek => by
            have := h e.1 (List.mem_map_of_mem he)
            omega
        have hcd : c.1 = d.1 := by
          rcases lt_trichotomy c.1 d.1 with hlt | heq | hgt
          · have := hl c.1
            simp only [lookupCell, if_true, show ¬ c.1 = d.1 by omega, if_false,
              below d.1 rest' hs2.1 c.1 hlt.le] at this
            exact absurd this (h1 c (by simp))
          · exact heq
          · have := hl d.1
            simp only [lookupCell, if_true, show ¬ d.1 = c.1 by omega, if_false,
              below c.1 rest hs1.1 d.1 hgt.le] at this
            exact absurd this.symm (h2 d (by simp))
        have hval : c.2 = d.2 := by simpa [lookupCell, hcd] using hl c.1
        have hrest : rest = rest' := by
          refine ih rest' hs1.2 hs2.2 (fun e he => h1 e (by simp [he]))
            (fun e he => h2 e (by simp [he])) fun k => ?_
          by_cases hk : k = c.1
          · rw [hk, below c.1 rest hs1.1 c.1 le_rfl, below d.1 rest' hs2.1 c.1 hcd.le]
          · have hk' : ¬ k = d.1 := hcd ▸ hk
            simpa [lookupCell, hk, hk'] using hl k
        rw [hrest, Prod.ext hcd hval]
  rw [aux mc nc hm.1 hn.1 (fun c hc => (hm.2.1 c hc).2) (fun c hc => (hn.2.1 c hc).2) hl]

/-! ### Images and runs of cells -/

end Memory

theorem cellsFrom_above (k : Nat) (ws : List Cell16) :
    ∀ c ∈ cellsFrom k ws, k ≤ c.1 ∧ c.1 < k + ws.length ∧ c.2 ≠ 0 := by
  induction ws generalizing k with
  | nil => simp [cellsFrom]
  | cons w ws ih =>
    intro c hc
    simp only [cellsFrom] at hc
    split at hc
    · obtain ⟨h1, h2, h3⟩ := ih (k + 1) c hc
      simp only [List.length_cons]
      exact ⟨by omega, by omega, h3⟩
    · rename_i hw
      rcases List.mem_cons.1 hc with rfl | hc
      · simpa using hw
      · obtain ⟨h1, h2, h3⟩ := ih (k + 1) c hc
        simp only [List.length_cons]
        exact ⟨by omega, by omega, h3⟩

theorem cellsFrom_rising (k : Nat) (ws : List Cell16) :
    ((cellsFrom k ws).map Prod.fst).Pairwise (· < ·) := by
  induction ws generalizing k with
  | nil => simp [cellsFrom]
  | cons w ws ih =>
    simp only [cellsFrom]
    split
    · exact ih _
    · refine List.pairwise_cons.2 ⟨fun b hb => ?_, ih _⟩
      obtain ⟨c, hc, rfl⟩ := List.mem_map.1 hb
      have := (cellsFrom_above (k + 1) ws c hc).1
      show k < c.1
      omega

theorem lookupCell_cellsFrom (k j : Nat) (ws : List Cell16) (hj : j < ws.length) :
    lookupCell (k + j) (cellsFrom k ws) = ws[j] := by
  induction ws generalizing k j with
  | nil => simp at hj
  | cons w ws ih =>
    cases j with
    | zero =>
      simp only [cellsFrom]
      split
      · rename_i h
        rw [lookupCell_of_not_listed]
        · simp [h]
        · intro c hc
          have := (cellsFrom_above (k + 1) ws c hc).1
          omega
      · simp [lookupCell]
    | succ j =>
      have := ih (k + 1) j (by simpa using hj)
      rw [show k + 1 + j = k + (j + 1) by omega] at this
      simp only [cellsFrom]
      split
      · simpa using this
      · rw [lookupCell_cons, if_neg (by omega)]
        simpa using this

theorem Memory.wf_ofImage {image : List Cell16} (h : image.length ≤ 65536) :
    (Memory.ofImage image).wf :=
  ⟨cellsFrom_rising 0 image,
    fun c hc => by
      have := cellsFrom_above 0 image c hc
      exact ⟨by simpa [Memory.ofImage] using this.2.1, this.2.2⟩, h⟩

theorem Memory.readFrom_length_le (m : Memory) (a n : Nat) : (m.readFrom a n).length ≤ n := by
  induction n generalizing a with
  | zero => simp [Memory.readFrom]
  | succ n ih =>
    simp only [Memory.readFrom]
    split
    · simpa using ih (a + 1)
    · simp

/-- What the `k`-th cell of a fetch is: the cell at `a + k`, if it and so all before it exist. -/
theorem Memory.readFrom_getElem? (m : Memory) (a n k : Nat) (hk : k < n) :
    (m.readFrom a n)[k]? = m.read (a + k) := by
  induction n generalizing a k with
  | zero => omega
  | succ n ih =>
    simp only [Memory.readFrom]
    split
    · rename_i w hw
      cases k with
      | zero => simp [hw]
      | succ k =>
        rw [List.getElem?_cons_succ, ih (a + 1) k (by omega)]
        congr 1
        omega
    · rename_i hn
      rw [Memory.read_eq_none_iff] at hn
      rw [(Memory.read_eq_none_iff m (a + k)).2 (by omega)]
      simp

end Sys2Proof.Machine
end

