-- ==== Sys2Proof/Laws/State.lean ====
section
/-! SUPPORT. One lemma per field per update of State, true by rfl: what an update writes and what it leaves alone. -/

namespace Sys2Proof.Machine.State

variable (s : State)

@[simp] theorem setReg_regs (d : Fin 8) (v : Cell16) : (s.setReg d v).regs = s.regs.set d v := rfl
@[simp] theorem setReg_pc (d : Fin 8) (v : Cell16) : (s.setReg d v).pc = s.pc := rfl
@[simp] theorem setReg_stack (d : Fin 8) (v : Cell16) : (s.setReg d v).stack = s.stack := rfl
@[simp] theorem setReg_mem (d : Fin 8) (v : Cell16) : (s.setReg d v).mem = s.mem := rfl
@[simp] theorem setReg_status (d : Fin 8) (v : Cell16) : (s.setReg d v).status = s.status := rfl
@[simp] theorem setReg_inPending (d : Fin 8) (v : Cell16) : (s.setReg d v).inPending = s.inPending := rfl
@[simp] theorem setReg_inTaken (d : Fin 8) (v : Cell16) : (s.setReg d v).inTaken = s.inTaken := rfl
@[simp] theorem setReg_outTrace (d : Fin 8) (v : Cell16) : (s.setReg d v).outTrace = s.outTrace := rfl

@[simp] theorem setPc_regs (t : Pc) : (s.setPc t).regs = s.regs := rfl
@[simp] theorem setPc_pc (t : Pc) : (s.setPc t).pc = t := rfl
@[simp] theorem setPc_stack (t : Pc) : (s.setPc t).stack = s.stack := rfl
@[simp] theorem setPc_mem (t : Pc) : (s.setPc t).mem = s.mem := rfl
@[simp] theorem setPc_status (t : Pc) : (s.setPc t).status = s.status := rfl
@[simp] theorem setPc_inPending (t : Pc) : (s.setPc t).inPending = s.inPending := rfl
@[simp] theorem setPc_inTaken (t : Pc) : (s.setPc t).inTaken = s.inTaken := rfl
@[simp] theorem setPc_outTrace (t : Pc) : (s.setPc t).outTrace = s.outTrace := rfl

@[simp] theorem advance_regs (n : Nat) : (s.advance n).regs = s.regs := rfl
@[simp] theorem advance_pc (n : Nat) : (s.advance n).pc = s.pc + BitVec.ofNat 17 n := rfl
@[simp] theorem advance_stack (n : Nat) : (s.advance n).stack = s.stack := rfl
@[simp] theorem advance_mem (n : Nat) : (s.advance n).mem = s.mem := rfl
@[simp] theorem advance_status (n : Nat) : (s.advance n).status = s.status := rfl
@[simp] theorem advance_inPending (n : Nat) : (s.advance n).inPending = s.inPending := rfl
@[simp] theorem advance_inTaken (n : Nat) : (s.advance n).inTaken = s.inTaken := rfl
@[simp] theorem advance_outTrace (n : Nat) : (s.advance n).outTrace = s.outTrace := rfl

@[simp] theorem jumpTo_regs (t : Cell16) : (s.jumpTo t).regs = s.regs := rfl
@[simp] theorem jumpTo_pc (t : Cell16) : (s.jumpTo t).pc = t.setWidth 17 := rfl
@[simp] theorem jumpTo_stack (t : Cell16) : (s.jumpTo t).stack = s.stack := rfl
@[simp] theorem jumpTo_mem (t : Cell16) : (s.jumpTo t).mem = s.mem := rfl
@[simp] theorem jumpTo_status (t : Cell16) : (s.jumpTo t).status = s.status := rfl
@[simp] theorem jumpTo_inPending (t : Cell16) : (s.jumpTo t).inPending = s.inPending := rfl
@[simp] theorem jumpTo_inTaken (t : Cell16) : (s.jumpTo t).inTaken = s.inTaken := rfl
@[simp] theorem jumpTo_outTrace (t : Cell16) : (s.jumpTo t).outTrace = s.outTrace := rfl

@[simp] theorem pushCell_regs (v : Cell16) : (s.pushCell v).regs = s.regs := rfl
@[simp] theorem pushCell_pc (v : Cell16) : (s.pushCell v).pc = s.pc := rfl
@[simp] theorem pushCell_stack (v : Cell16) : (s.pushCell v).stack = v :: s.stack := rfl
@[simp] theorem pushCell_mem (v : Cell16) : (s.pushCell v).mem = s.mem := rfl
@[simp] theorem pushCell_status (v : Cell16) : (s.pushCell v).status = s.status := rfl
@[simp] theorem pushCell_inPending (v : Cell16) : (s.pushCell v).inPending = s.inPending := rfl
@[simp] theorem pushCell_inTaken (v : Cell16) : (s.pushCell v).inTaken = s.inTaken := rfl
@[simp] theorem pushCell_outTrace (v : Cell16) : (s.pushCell v).outTrace = s.outTrace := rfl

@[simp] theorem setStack_regs (st : List Cell16) : (s.setStack st).regs = s.regs := rfl
@[simp] theorem setStack_pc (st : List Cell16) : (s.setStack st).pc = s.pc := rfl
@[simp] theorem setStack_stack (st : List Cell16) : (s.setStack st).stack = st := rfl
@[simp] theorem setStack_mem (st : List Cell16) : (s.setStack st).mem = s.mem := rfl
@[simp] theorem setStack_status (st : List Cell16) : (s.setStack st).status = s.status := rfl
@[simp] theorem setStack_inPending (st : List Cell16) : (s.setStack st).inPending = s.inPending := rfl
@[simp] theorem setStack_inTaken (st : List Cell16) : (s.setStack st).inTaken = s.inTaken := rfl
@[simp] theorem setStack_outTrace (st : List Cell16) : (s.setStack st).outTrace = s.outTrace := rfl

@[simp] theorem store_regs (a v : Cell16) : (s.store a v).regs = s.regs := rfl
@[simp] theorem store_pc (a v : Cell16) : (s.store a v).pc = s.pc := rfl
@[simp] theorem store_stack (a v : Cell16) : (s.store a v).stack = s.stack := rfl
@[simp] theorem store_mem (a v : Cell16) : (s.store a v).mem = s.mem.write a v := rfl
@[simp] theorem store_status (a v : Cell16) : (s.store a v).status = s.status := rfl
@[simp] theorem store_inPending (a v : Cell16) : (s.store a v).inPending = s.inPending := rfl
@[simp] theorem store_inTaken (a v : Cell16) : (s.store a v).inTaken = s.inTaken := rfl
@[simp] theorem store_outTrace (a v : Cell16) : (s.store a v).outTrace = s.outTrace := rfl

@[simp] theorem raise_regs (k : ErrorKind) : (s.raise k).regs = s.regs := rfl
@[simp] theorem raise_pc (k : ErrorKind) : (s.raise k).pc = s.pc := rfl
@[simp] theorem raise_stack (k : ErrorKind) : (s.raise k).stack = s.stack := rfl
@[simp] theorem raise_mem (k : ErrorKind) : (s.raise k).mem = s.mem := rfl
@[simp] theorem raise_status (k : ErrorKind) : (s.raise k).status = .errored k := rfl
@[simp] theorem raise_inPending (k : ErrorKind) : (s.raise k).inPending = s.inPending := rfl
@[simp] theorem raise_inTaken (k : ErrorKind) : (s.raise k).inTaken = s.inTaken := rfl
@[simp] theorem raise_outTrace (k : ErrorKind) : (s.raise k).outTrace = s.outTrace := rfl

@[simp] theorem halt_regs (r : HaltReason) : (s.halt r).regs = s.regs := rfl
@[simp] theorem halt_pc (r : HaltReason) : (s.halt r).pc = s.pc := rfl
@[simp] theorem halt_stack (r : HaltReason) : (s.halt r).stack = s.stack := rfl
@[simp] theorem halt_mem (r : HaltReason) : (s.halt r).mem = s.mem := rfl
@[simp] theorem halt_status (r : HaltReason) : (s.halt r).status = .halted r := rfl
@[simp] theorem halt_inPending (r : HaltReason) : (s.halt r).inPending = s.inPending := rfl
@[simp] theorem halt_inTaken (r : HaltReason) : (s.halt r).inTaken = s.inTaken := rfl
@[simp] theorem halt_outTrace (r : HaltReason) : (s.halt r).outTrace = s.outTrace := rfl

@[simp] theorem takeChar_regs (c : Value15) : (s.takeChar c).regs = s.regs := rfl
@[simp] theorem takeChar_pc (c : Value15) : (s.takeChar c).pc = s.pc := rfl
@[simp] theorem takeChar_stack (c : Value15) : (s.takeChar c).stack = s.stack := rfl
@[simp] theorem takeChar_mem (c : Value15) : (s.takeChar c).mem = s.mem := rfl
@[simp] theorem takeChar_status (c : Value15) : (s.takeChar c).status = s.status := rfl
@[simp] theorem takeChar_inPending (c : Value15) : (s.takeChar c).inPending = s.inPending.tail := rfl
@[simp] theorem takeChar_inTaken (c : Value15) : (s.takeChar c).inTaken = s.inTaken ++ [c] := rfl
@[simp] theorem takeChar_outTrace (c : Value15) : (s.takeChar c).outTrace = s.outTrace := rfl

@[simp] theorem outChar_regs (v : Cell16) : (s.outChar v).regs = s.regs := rfl
@[simp] theorem outChar_pc (v : Cell16) : (s.outChar v).pc = s.pc := rfl
@[simp] theorem outChar_stack (v : Cell16) : (s.outChar v).stack = s.stack := rfl
@[simp] theorem outChar_mem (v : Cell16) : (s.outChar v).mem = s.mem := rfl
@[simp] theorem outChar_status (v : Cell16) : (s.outChar v).status = s.status := rfl
@[simp] theorem outChar_inPending (v : Cell16) : (s.outChar v).inPending = s.inPending := rfl
@[simp] theorem outChar_inTaken (v : Cell16) : (s.outChar v).inTaken = s.inTaken := rfl
@[simp] theorem outChar_outTrace (v : Cell16) : (s.outChar v).outTrace = s.outTrace ++ [v] := rfl

end Sys2Proof.Machine.State
end

