-- ==== Sys2Proof/Laws/Operands.lean ====
section
/-! SUPPORT. What the shared operations over operands can do, said once: a value or an error, and nothing else. -/

namespace Sys2Proof.Machine

theorem resolve_literal_ok {w : Cell16} (h : w.toNat ≤ 32767) (regs : Vector Cell16 8) :
    resolve (.literal w) regs = .ok w := by simp [resolve, h]

theorem resolve_register_ok (d : Fin 8) (regs : Vector Cell16 8) :
    resolve (.register d.val) regs = .ok regs[d] := by simp [resolve]

/-- A well-formed source always has a value: the resolver's two checks cannot fire on a decoded argument
(40_step_cycle.md R88). -/
theorem resolve_of_wf {a : Arg} (h : a.wf = true) (regs : Vector Cell16 8) :
    ∃ v, resolve a regs = .ok v := by
  cases a with
  | literal w => exact ⟨w, resolve_literal_ok (by simpa [Arg.wf] using h) regs⟩
  | register i =>
    have hi : i < 8 := Nat.lt_succ_of_le (by simpa [Arg.wf] using h)
    exact ⟨_, resolve_register_ok ⟨i, hi⟩ regs⟩

@[simp] theorem destIndex_literal (w : Cell16) : destIndex (.literal w) = .error .invalidRegister :=
  rfl

@[simp] theorem destIndex_register (d : Fin 8) : destIndex (.register d.val) = .ok d := by
  simp [destIndex]

theorem destIndex_eq_ok {a : Arg} {d : Fin 8} (h : destIndex a = .ok d) : a = .register d.val := by
  cases a with
  | literal w => simp at h
  | register i =>
    simp only [destIndex] at h
    split at h
    · cases h; rfl
    · cases h

theorem destIndex_eq_error {a : Arg} {k : ErrorKind} (h : destIndex a = .error k) :
    k = .invalidRegister := by
  cases a with
  | literal w => exact (Except.error.inj h).symm
  | register i =>
    simp only [destIndex] at h
    split at h
    · cases h
    · exact (Except.error.inj h).symm

@[simp] theorem withDest_literal (w : Cell16) (s : State) (go : Fin 8 → Out) :
    withDest (.literal w) s go = .next (s.raise .invalidRegister) := rfl

@[simp] theorem withDest_register (d : Fin 8) (s : State) (go : Fin 8 → Out) :
    withDest (.register d.val) s go = go d := by simp [withDest]

/-- Everything the destination check can do. -/
theorem withDest_eq_next {a : Arg} {s t : State} {go : Fin 8 → Out}
    (h : withDest a s go = .next t) :
    (∃ d : Fin 8, a = .register d.val ∧ go d = .next t) ∨ t = s.raise .invalidRegister := by
  simp only [withDest] at h
  split at h
  · exact .inl ⟨_, destIndex_eq_ok ‹_›, h⟩
  · rename_i k hk
    rw [destIndex_eq_error hk] at h
    exact .inr (by cases h; rfl)

theorem withValue_of_ok {a : Arg} {s : State} {v : Cell16} (h : resolve a s.regs = .ok v)
    (go : Cell16 → Out) : withValue a s go = go v := by simp [withValue, h]

/-- Everything the resolver can do. -/
theorem withValue_eq_next {a : Arg} {s t : State} {go : Cell16 → Out}
    (h : withValue a s go = .next t) :
    (∃ v, resolve a s.regs = .ok v ∧ go v = .next t) ∨ ∃ k, t = s.raise k := by
  simp only [withValue] at h
  split at h
  · exact .inl ⟨_, ‹_›, h⟩
  · exact .inr ⟨_, by cases h; rfl⟩

theorem conditionHolds_iff (v : Cell16) : conditionHolds v = true ↔ v ≠ 0 := by simp [conditionHolds]

end Sys2Proof.Machine
end

