-- ==== Sys2Proof/Laws/Step.lean ====
section
/-! SUPPORT. What a meaning and a step can do, said once (40_step_cycle.md R80, R89, R94). -/

namespace Sys2Proof.Machine

/-- Everything a three-argument ALU instruction can do: write one register and advance, or raise. -/
theorem binaryAlu_eq_next {op : Cell16 → Cell16 → Except ErrorKind Cell16} {a b c : Arg} {s t : State}
    (h : binaryAlu op a b c s = .next t) :
    (∃ (d : Fin 8) (x y v : Cell16), a = .register d.val ∧ resolve b s.regs = .ok x ∧
      resolve c s.regs = .ok y ∧ op x y = .ok v ∧ t = (s.setReg d v).advance 4) ∨
    ∃ k, t = s.raise k := by
  unfold binaryAlu at h
  rcases withDest_eq_next h with ⟨d, hd, h1⟩ | h1
  · rcases withValue_eq_next h1 with ⟨x, hx, h2⟩ | h2
    · rcases withValue_eq_next h2 with ⟨y, hy, h3⟩ | h3
      · split at h3
        · cases h3
          exact .inl ⟨d, x, y, _, hd, hx, hy, ‹_›, rfl⟩
        · cases h3
          exact .inr ⟨_, rfl⟩
      · exact .inr h3
    · exact .inr h2
  · exact .inr ⟨_, h1⟩

theorem binaryAlu_of_ok {op : Cell16 → Cell16 → Except ErrorKind Cell16} {d : Fin 8} {b c : Arg}
    {s : State} {x y v : Cell16} (hx : resolve b s.regs = .ok x) (hy : resolve c s.regs = .ok y)
    (hv : op x y = .ok v) :
    binaryAlu op (.register d.val) b c s = .next ((s.setReg d v).advance 4) := by
  simp [binaryAlu, withValue_of_ok hx, withValue_of_ok hy, hv]

/-- The reduction always fits 15 bits (42_alu.md R110). -/
theorem reduce_toNat (n : Nat) : (reduce n).toNat = n % 32768 := by
  simp only [reduce, Config.modulus, BitVec.toNat_ofNat]
  omega

theorem step_of_over {s : State} (h : s.Over) : step s = .next s := by
  unfold step
  split
  · exact absurd ‹_› h
  · rfl
  · rfl

theorem step_of_decode_error {s : State} {e : DecodeError} (hs : s.status = .running)
    (h : decode s.fetchCells = .error e) : step s = .next (s.decodeFailed e) := by
  simp [step, hs, h]

/-- Everything a step can be: nothing in a terminal state, a failed decode, or one execution. -/
theorem step_cases {s : State} {o : Out} (h : step s = o) :
    (s.Over ∧ o = .next s) ∨
    (∃ e, s.status = .running ∧ decode s.fetchCells = .error e ∧ o = .next (s.decodeFailed e)) ∨
    ∃ i rest, s.status = .running ∧ decode s.fetchCells = .ok (i, rest) ∧ o = exec i s := by
  subst h
  by_cases hs : s.status = .running
  · cases hd : decode s.fetchCells with
    | error e => exact .inr (.inl ⟨e, hs, rfl, step_of_decode_error hs hd⟩)
    | ok p => exact .inr (.inr ⟨p.1, p.2, hs, rfl, by simp [step, hs, hd]⟩)
  · exact .inl ⟨hs, step_of_over hs⟩

/-- One more step of the host's run. -/
theorem core_run_succ {s t : State} (h : step s = .next t) (n : Nat) :
    core.run (n + 1) s = core.run n t := by
  have h' : core.step s = .next t := h
  simp only [Host.Core.run, h']

/-- A failed decode writes the status and nothing else. -/
theorem decodeFailed_eq (s : State) (e : DecodeError) :
    ∃ st, s.decodeFailed e = { s with status := st } ∧ st ≠ .running := by
  cases e <;> exact ⟨_, rfl, by simp⟩

theorem fetchCells_length_le (s : State) : s.fetchCells.length ≤ 4 := s.mem.readFrom_length_le _ _

/-- The `k`-th cell of a fetch is the cell at `pc + k`, with no wrap (40_step_cycle.md R83). -/
theorem fetchCells_getElem? (s : State) (k : Nat) (hk : k < 4) :
    s.fetchCells[k]? = s.mem.read (s.pc.toNat + k) := s.mem.readFrom_getElem? _ _ k hk

end Sys2Proof.Machine
end

