-- ==== Sys2Proof/Laws/Exec.lean ====
section
/-! SUPPORT. One inversion lemma per meaning: everything it can do when it answers a next state. An ALU instruction's
is `binaryAlu_eq_next`. -/

namespace Sys2Proof.Machine

variable {a b : Arg} {s t : State}

theorem execSet_eq_next (h : execSet a b s = .next t) :
    (∃ (d : Fin 8) (v : Cell16), a = .register d.val ∧ resolve b s.regs = .ok v ∧
      t = (s.setReg d v).advance 3) ∨ ∃ k, t = s.raise k := by
  rcases withDest_eq_next h with ⟨d, hd, h1⟩ | h1
  · rcases withValue_eq_next h1 with ⟨v, hv, h2⟩ | h2
    · cases h2
      exact .inl ⟨d, v, hd, hv, rfl⟩
    · exact .inr h2
  · exact .inr ⟨_, h1⟩

theorem execPush_eq_next (h : execPush a s = .next t) :
    (∃ v, resolve a s.regs = .ok v ∧ t = (s.pushCell v).advance 2) ∨ ∃ k, t = s.raise k := by
  rcases withValue_eq_next h with ⟨v, hv, h1⟩ | h1
  · cases h1
    exact .inl ⟨v, hv, rfl⟩
  · exact .inr h1

theorem execPop_eq_next (h : execPop a s = .next t) :
    (∃ (d : Fin 8) (v : Cell16) (rest : List Cell16), a = .register d.val ∧ s.stack = v :: rest ∧
      t = ((s.setStack rest).setReg d v).advance 2) ∨ ∃ k, t = s.raise k := by
  rcases withDest_eq_next h with ⟨d, hd, h1⟩ | h1
  · split at h1
    · cases h1
      exact .inr ⟨_, rfl⟩
    · cases h1
      exact .inl ⟨d, _, _, hd, ‹_›, rfl⟩
  · exact .inr ⟨_, h1⟩

theorem execNot_eq_next (h : execNot a b s = .next t) :
    (∃ (d : Fin 8) (x : Cell16), a = .register d.val ∧ resolve b s.regs = .ok x ∧
      t = (s.setReg d (aluNot x)).advance 3) ∨ ∃ k, t = s.raise k := by
  rcases withDest_eq_next h with ⟨d, hd, h1⟩ | h1
  · rcases withValue_eq_next h1 with ⟨x, hx, h2⟩ | h2
    · cases h2
      exact .inl ⟨d, x, hd, hx, rfl⟩
    · exact .inr h2
  · exact .inr ⟨_, h1⟩

theorem execJump_eq_next (h : execJump a s = .next t) :
    (∃ p, resolve a s.regs = .ok p ∧ t = s.jumpTo p) ∨ ∃ k, t = s.raise k := by
  rcases withValue_eq_next h with ⟨p, hp, h1⟩ | h1
  · cases h1
    exact .inl ⟨p, hp, rfl⟩
  · exact .inr h1

theorem execJumpIfTrue_eq_next (h : execJumpIfTrue a b s = .next t) :
    (∃ v p, resolve a s.regs = .ok v ∧ resolve b s.regs = .ok p ∧
      t = if v = 0 then s.advance 3 else s.jumpTo p) ∨ ∃ k, t = s.raise k := by
  rcases withValue_eq_next h with ⟨v, hv, h1⟩ | h1
  · rcases withValue_eq_next h1 with ⟨p, hp, h2⟩ | h2
    · refine .inl ⟨v, p, hv, hp, ?_⟩
      by_cases hz : v = 0 <;> simp_all [conditionHolds]
    · exact .inr h2
  · exact .inr h1

theorem execJumpIfFalse_eq_next (h : execJumpIfFalse a b s = .next t) :
    (∃ v p, resolve a s.regs = .ok v ∧ resolve b s.regs = .ok p ∧
      t = if v = 0 then s.jumpTo p else s.advance 3) ∨ ∃ k, t = s.raise k := by
  rcases withValue_eq_next h with ⟨v, hv, h1⟩ | h1
  · rcases withValue_eq_next h1 with ⟨p, hp, h2⟩ | h2
    · refine .inl ⟨v, p, hv, hp, ?_⟩
      by_cases hz : v = 0 <;> simp_all [conditionHolds]
    · exact .inr h2
  · exact .inr h1

theorem execCall_eq_next (h : execCall a s = .next t) :
    (∃ p, resolve a s.regs = .ok p ∧ s.pc.toNat + 2 ≤ 65535 ∧
      t = (s.pushCell (BitVec.ofNat 16 (s.pc.toNat + 2))).jumpTo p) ∨ ∃ k, t = s.raise k := by
  rcases withValue_eq_next h with ⟨p, hp, h1⟩ | h1
  · split at h1
    · cases h1
      exact .inr ⟨_, rfl⟩
    · cases h1
      exact .inl ⟨p, hp, by omega, rfl⟩
  · exact .inr h1

theorem execReturn_eq_next (h : execReturn s = .next t) :
    (∃ v rest, s.stack = v :: rest ∧ t = (s.setStack rest).jumpTo v) ∨
      (s.stack = [] ∧ t = s.halt .machineHalted) := by
  unfold execReturn at h
  split at h
  · cases h
    exact .inr ⟨‹_›, rfl⟩
  · cases h
    exact .inl ⟨_, _, ‹_›, rfl⟩

theorem execReadMemory_eq_next (h : execReadMemory a b s = .next t) :
    (∃ (d : Fin 8) (addr v : Cell16), a = .register d.val ∧ resolve b s.regs = .ok addr ∧
      s.mem.read addr.toNat = some v ∧ t = (s.setReg d v).advance 3) ∨ ∃ k, t = s.raise k := by
  rcases withDest_eq_next h with ⟨d, hd, h1⟩ | h1
  · rcases withValue_eq_next h1 with ⟨addr, ha, h2⟩ | h2
    · split at h2
      · cases h2
        exact .inl ⟨d, addr, _, hd, ha, ‹_›, rfl⟩
      · cases h2
        exact .inr ⟨_, rfl⟩
    · exact .inr h2
  · exact .inr ⟨_, h1⟩

theorem execWriteMemory_eq_next (h : execWriteMemory a b s = .next t) :
    (∃ addr v, resolve a s.regs = .ok addr ∧ resolve b s.regs = .ok v ∧
      t = (s.store addr v).advance 3) ∨ ∃ k, t = s.raise k := by
  rcases withValue_eq_next h with ⟨addr, ha, h1⟩ | h1
  · rcases withValue_eq_next h1 with ⟨v, hv, h2⟩ | h2
    · cases h2
      exact .inl ⟨addr, v, ha, hv, rfl⟩
    · exact .inr h2
  · exact .inr h1

theorem execHalt_eq_next (h : execHalt s = .next t) : t = s.halt .machineHalted := by
  cases h
  rfl

theorem execNoop_eq_next (h : execNoop s = .next t) : t = s.advance 1 := by
  cases h
  rfl

theorem execOutput_eq_next (h : execOutput a s = .next t) :
    (∃ v, resolve a s.regs = .ok v ∧ t = (s.outChar v).advance 2) ∨ ∃ k, t = s.raise k := by
  rcases withValue_eq_next h with ⟨v, hv, h1⟩ | h1
  · cases h1
    exact .inl ⟨v, hv, rfl⟩
  · exact .inr h1

theorem execInput_eq_next (h : execInput a s = .next t) :
    (∃ (d : Fin 8) (c : Value15), a = .register d.val ∧ s.nextAnswer = .char c ∧
      t = ((s.takeChar c).setReg d (c.setWidth 16)).advance 2) ∨ ∃ k, t = s.raise k := by
  rcases withDest_eq_next h with ⟨d, hd, h1⟩ | h1
  · split at h1
    · cases h1
      exact .inl ⟨d, _, hd, ‹_›, rfl⟩
    · cases h1
      exact .inr ⟨_, rfl⟩
  · exact .inr ⟨_, h1⟩

end Sys2Proof.Machine
end

