-- ==== Sys2Proof/Laws/PerInstr.lean ====
section
/-! SUPPORT. Statements about every instruction as syntax, one lemma per constructor. -/

/-- The encoding has one opcode word holding the opcode number and `arity` argument words
(30_encoding.md R60, R62). -/
def Sys2Proof.Laws.EncodeShape.Statement (i : Sys2Proof.Instr) : Prop :=
  (Sys2Proof.encode i).head? = some (BitVec.ofNat 16 i.opcode) ∧
    (Sys2Proof.encode i).length = 1 + i.arity

namespace Sys2Proof.Laws.EncodeShape

theorem of_any (i : Instr) : Statement i := ⟨rfl, encode_length i⟩

theorem halt : Statement .halt := of_any _
theorem set (a b : Arg) : Statement (.set a b) := of_any _
theorem push (a : Arg) : Statement (.push a) := of_any _
theorem pop (a : Arg) : Statement (.pop a) := of_any _
theorem equal (a b c : Arg) : Statement (.equal a b c) := of_any _
theorem greaterThan (a b c : Arg) : Statement (.greaterThan a b c) := of_any _
theorem jump (a : Arg) : Statement (.jump a) := of_any _
theorem jumpIfTrue (a b : Arg) : Statement (.jumpIfTrue a b) := of_any _
theorem jumpIfFalse (a b : Arg) : Statement (.jumpIfFalse a b) := of_any _
theorem add (a b c : Arg) : Statement (.add a b c) := of_any _
theorem multiply (a b c : Arg) : Statement (.multiply a b c) := of_any _
theorem modulo (a b c : Arg) : Statement (.modulo a b c) := of_any _
theorem bitAnd (a b c : Arg) : Statement (.bitAnd a b c) := of_any _
theorem bitOr (a b c : Arg) : Statement (.bitOr a b c) := of_any _
theorem not (a b : Arg) : Statement (.not a b) := of_any _
theorem readMemory (a b : Arg) : Statement (.readMemory a b) := of_any _
theorem writeMemory (a b : Arg) : Statement (.writeMemory a b) := of_any _
theorem call (a : Arg) : Statement (.call a) := of_any _
theorem ret : Statement .ret := of_any _
theorem output (a : Arg) : Statement (.output a) := of_any _
theorem input (a : Arg) : Statement (.input a) := of_any _
theorem noop : Statement .noop := of_any _

end Sys2Proof.Laws.EncodeShape
end

