-- ==== Sys2Proof/Tests/Slice0.lean ====
section
/-! SUPPORT. Small tests. Expected values are the spec's own: 95_test_vectors.md (names in the comments), the examples
of the instruction rules, and the encodings of 30_encoding.md. The last part shows for every statement with
hypotheses a concrete state and operands that meet them all. -/

namespace Sys2Proof.Tests

open Sys2Proof.Machine

/-- Reset from an image. -/
def start (image : List Cell16) : State := { State.reset with mem := .ofImage image }

/-- The state after one step. -/
def after (s : State) : Option State := Out.state? (step s)

/-- Status and pc after one step. -/
def statusPc (s : State) : Option (Status × Pc) := (after s).map fun t => (t.status, t.pc)

/-! ### Well-formedness: each check refuses an ill-formed term -/

theorem test_wf_literal_bound :
    Instr.wf (.push (.literal 32767)) = true ∧ Instr.wf (.push (.literal 32768)) = false := by decide

theorem test_wf_register_bound :
    Instr.wf (.jump (.register 7)) = true ∧ Instr.wf (.jump (.register 8)) = false := by decide

theorem test_wf_every_argument :
    Instr.wf (.add (.register 8) (.literal 0) (.literal 0)) = false ∧
      Instr.wf (.add (.register 0) (.literal 32768) (.literal 0)) = false ∧
      Instr.wf (.add (.register 0) (.literal 0) (.register 8)) = false ∧
      Instr.wf (.add (.literal 5) (.literal 0) (.literal 0)) = true := by decide

theorem test_memory_wf_refuses :
    ¬ Memory.wf ⟨[(1, 5), (0, 5)], 2⟩ ∧ ¬ Memory.wf ⟨[(0, 0)], 1⟩ ∧ ¬ Memory.wf ⟨[(1, 5)], 1⟩ ∧
      ¬ Memory.wf ⟨[], 65537⟩ ∧ Memory.wf ⟨[(0, 5), (1, 5)], 65536⟩ := by decide

/-! ### Decoding: every constructor from words written out from 30_encoding.md R66 and R63 -/

theorem test_decode_system :
    decode [0] = .ok (.halt, []) ∧ decode [21] = .ok (.noop, []) ∧
      decode [19, 72] = .ok (.output (.literal 72), []) ∧
      decode [20, 0b1000000000000101] = .ok (.input (.register 5), []) := ⟨rfl, rfl, rfl, rfl⟩

theorem test_decode_move_and_stack :
    decode [1, 32771, 1234] = .ok (.set (.register 3) (.literal 1234), []) ∧
      decode [2, 32767] = .ok (.push (.literal 32767), []) ∧
      decode [0b0000000000000011, 0b1000000000000110] = .ok (.pop (.register 6), []) :=
  ⟨rfl, rfl, rfl⟩

theorem test_decode_alu :
    decode [4, 32768, 32769, 5] = .ok (.equal (.register 0) (.register 1) (.literal 5), []) ∧
      decode [5, 32770, 10, 9] = .ok (.greaterThan (.register 2) (.literal 10) (.literal 9), []) ∧
      decode [0b0000000000001001, 0b1000000000000000, 0b1000000000000001, 0b0000000000000100] =
        .ok (.add (.register 0) (.register 1) (.literal 4), []) ∧
      decode [10, 32768, 300, 200] = .ok (.multiply (.register 0) (.literal 300) (.literal 200), []) ∧
      decode [11, 32769, 100, 7] = .ok (.modulo (.register 1) (.literal 100) (.literal 7), []) ∧
      decode [12, 32768, 12, 10] = .ok (.bitAnd (.register 0) (.literal 12) (.literal 10), []) ∧
      decode [13, 32768, 12, 10] = .ok (.bitOr (.register 0) (.literal 12) (.literal 10), []) ∧
      decode [14, 32768, 32769] = .ok (.not (.register 0) (.register 1), []) :=
  ⟨rfl, rfl, rfl, rfl, rfl, rfl, rfl, rfl⟩

theorem test_decode_control :
    decode [6, 100] = .ok (.jump (.literal 100), []) ∧
      decode [7, 32768, 50] = .ok (.jumpIfTrue (.register 0) (.literal 50), []) ∧
      decode [8, 32768, 50] = .ok (.jumpIfFalse (.register 0) (.literal 50), []) ∧
      decode [0b0000000000010001, 0b0000000011001000] = .ok (.call (.literal 200), []) ∧
      decode [18] = .ok (.ret, []) := ⟨rfl, rfl, rfl, rfl, rfl⟩

theorem test_decode_memory :
    decode [15, 32768, 100] = .ok (.readMemory (.register 0) (.literal 100), []) ∧
      decode [0b0000000000010000, 0b0000000000000111, 0b0000000001001000] =
        .ok (.writeMemory (.literal 7) (.literal 72), []) := ⟨rfl, rfl⟩

theorem test_decode_refuses :
    decode [] = .error .noOpcodeWord ∧ decode [22] = .error .invalidOpcode ∧
      decode [32768] = .error .invalidOpcode ∧ decode [9, 40000] = .error .invalidArgument ∧
      decode [9, 32768] = .error .missingArgument ∧ decode [4, 32776, 1] = .error .invalidArgument ∧
      decode [1, 5, 7] = .ok (.set (.literal 5) (.literal 7), []) :=
  ⟨rfl, rfl, rfl, rfl, rfl, rfl, rfl⟩

theorem test_decode_table_word :
    decodeTableWord 16 9 = some (.add (.literal 0) (.literal 0) (.literal 0)) ∧
      decodeTableWord 32 (3 + 65536 * 32774) = some (.pop (.register 6)) ∧
      decodeTableWord 16 22 = none := by decide

/-! ### One step of each instruction (95_test_vectors.md Parts 1 and 2) -/

/-- M1, M6. -/
theorem test_set :
    (after (start [1, 32771, 1234])).map (fun t => (t.regs[3], t.pc)) = some (1234, 3) ∧
      statusPc (start [1, 5, 7]) = some (.errored .invalidRegister, 0) := by decide

/-- M7, M8. -/
theorem test_push :
    (after { start [2, 32770] with regs := #v[0, 0, 5, 0, 0, 0, 0, 0], stack := [9] }).map
        (fun t => (t.stack, t.pc)) = some ([5, 9], 2) := by decide

/-- M9, M10, M12. -/
theorem test_pop :
    (after { start [3, 32774] with stack := [3, 2, 1] }).map
        (fun t => (t.regs[6], t.stack, t.pc)) = some (3, [2, 1], 2) ∧
      statusPc (start [3, 32768]) = some (.errored .stackExhausted, 0) ∧
      (after { start [3, 5] with stack := [8] }).map (fun t => (t.status, t.stack)) =
        some (.errored .invalidRegister, [8]) := by decide

/-- A2, A4. -/
theorem test_equal :
    (after { start [4, 32768, 32768, 32768] with regs := #v[999, 0, 0, 0, 0, 0, 0, 0] }).map
        (fun t => (t.regs[0], t.pc)) = some (1, 4) ∧
      (after { start [4, 32768, 32769, 0] with regs := #v[0, 32768, 0, 0, 0, 0, 0, 0] }).map
        (fun t => t.regs[0]) = some 0 := by decide

/-- A5, A6, A7. -/
theorem test_greaterThan :
    (after (start [5, 32770, 10, 9])).map (fun t => t.regs[2]) = some 1 ∧
      (after (start [5, 32770, 7, 7])).map (fun t => t.regs[2]) = some 0 ∧
      (after (start [5, 32770, 0, 32767])).map (fun t => t.regs[2]) = some 0 := by decide

/-- A10, A14. -/
theorem test_add :
    (after (start [9, 32768, 32767, 5])).map (fun t => (t.regs[0], t.pc)) = some (4, 4) ∧
      (after { start [9, 32768, 32769, 32769] with regs := #v[0, 40000, 0, 0, 0, 0, 0, 0] }).map
        (fun t => t.regs[0]) = some 14464 := by decide

/-- A15, A16. -/
theorem test_multiply :
    (after (start [10, 32768, 300, 200])).map (fun t => t.regs[0]) = some 27232 ∧
      (after (start [10, 32768, 32767, 32767])).map (fun t => t.regs[0]) = some 1 := by decide

/-- A20, A24, A26. -/
theorem test_modulo :
    (after (start [11, 32769, 100, 7])).map (fun t => t.regs[1]) = some 2 ∧
      (after { start [11, 32769, 0, 0] with regs := #v[0, 55, 0, 0, 0, 0, 0, 0] }).map
        (fun t => (t.status, t.regs[1], t.pc)) = some (.errored .arithmeticError, 55, 0) ∧
      (after { start [11, 32768, 32769, 32770] with
        regs := #v[0, 40000, 50000, 0, 0, 0, 0, 0] }).map (fun t => t.regs[0]) = some 7232 := by
  decide

/-- A28, A30. -/
theorem test_bitAnd :
    (after (start [12, 32768, 12, 10])).map (fun t => t.regs[0]) = some 8 ∧
      (after { start [12, 32768, 32769, 32770] with
        regs := #v[0, 65535, 49152, 0, 0, 0, 0, 0] }).map (fun t => t.regs[0]) = some 16384 := by
  decide

/-- A31, A33. -/
theorem test_bitOr :
    (after (start [13, 32768, 12, 10])).map (fun t => t.regs[0]) = some 14 ∧
      (after { start [13, 32768, 32769, 1] with regs := #v[0, 32768, 0, 0, 0, 0, 0, 0] }).map
        (fun t => t.regs[0]) = some 1 := by decide

/-- A34, A37. -/
theorem test_not :
    (after { start [14, 32768, 32769] with regs := #v[0, 5, 0, 0, 0, 0, 0, 0] }).map
        (fun t => (t.regs[0], t.pc)) = some (32762, 3) ∧
      (after { start [14, 32768, 32769] with regs := #v[0, 32768, 0, 0, 0, 0, 0, 0] }).map
        (fun t => t.regs[0]) = some 32767 := by decide

/-- T1, T2. -/
theorem test_jump :
    statusPc (start [6, 100]) = some (.running, 100) ∧
      statusPc { start [6, 32769] with regs := #v[0, 1, 0, 0, 0, 0, 0, 0] } =
        some (.running, 1) := by decide

/-- T5, T6, T7. -/
theorem test_jumpIfTrue :
    statusPc (start [7, 32768, 9]) = some (.running, 3) ∧
      statusPc { start [7, 32768, 9] with regs := #v[32768, 0, 0, 0, 0, 0, 0, 0] } =
        some (.running, 9) ∧
      statusPc (start [7, 0, 40000]) = some (.errored .invalidArgument, 0) := by decide

/-- T8, T9, T10. -/
theorem test_jumpIfFalse :
    statusPc (start [8, 32768, 9]) = some (.running, 9) ∧
      statusPc (start [8, 5, 9]) = some (.running, 3) ∧
      statusPc { start [8, 0, 32769] with regs := #v[0, 40000, 0, 0, 0, 0, 0, 0] } =
        some (.running, 40000) := by decide

/-- T11, T13 (the cells of T13 that are read; the others are unlisted). -/
theorem test_call :
    (after { start [21, 21, 17, 32771] with pc := 2, stack := [7] }).map
        (fun t => (t.stack, t.pc)) = some ([4, 7], 0) ∧
      statusPc { State.reset with pc := 65534, mem := ⟨[(65534, 17)], 65536⟩ } =
        some (.errored .returnAddressOverflow, 65534) := by decide

/-- T14, T15, T16. -/
theorem test_return :
    (after { start [18] with stack := [3, 5] }).map (fun t => (t.stack, t.pc)) = some ([5], 3) ∧
      statusPc (start [18]) = some (.halted .machineHalted, 0) ∧
      statusPc { start [18] with stack := [40000] } = some (.running, 40000) := by decide

/-- L2, L3, L4. -/
theorem test_readMemory :
    (after { start [15, 32768, 32768] with regs := #v[2, 0, 0, 0, 0, 0, 0, 0] }).map
        (fun t => t.regs[0]) = some 32768 ∧
      (after (start [15, 32768, 2])).map (fun t => (t.regs[0], t.pc)) = some (2, 3) ∧
      statusPc (start [15, 32768, 3]) = some (.errored .memoryOutOfRange, 0) := by decide

/-- L7, L9. -/
theorem test_writeMemory :
    (after (start [16, 1, 500])).map (fun t => t.mem) = some (Memory.ofImage [16, 500, 500]) ∧
      (after { start [16, 32768, 32769] with regs := #v[5, 40000, 0, 0, 0, 0, 0, 0] }).map
        (fun t => t.mem) = some (Memory.ofImage [16, 32768, 32769, 0, 0, 40000]) := by decide

/-- Y1, Y2. -/
theorem test_halt :
    statusPc (start [0]) = some (.halted .machineHalted, 0) ∧
      statusPc (start [0, 40000]) = some (.halted .machineHalted, 0) := by decide

/-- Y3. -/
theorem test_noop : statusPc (start [21]) = some (.running, 1) := by decide

/-- Y4, Y5. -/
theorem test_output :
    (after { start [19, 32768] with regs := #v[40000, 0, 0, 0, 0, 0, 0, 0], outTrace := [4] }).map
        (fun t => (t.outTrace, t.pc)) = some ([4, 40000], 2) := by decide

/-- Y6, Y7, Y8. -/
theorem test_input :
    (after { start [20, 32773] with inPending := [.char 32767, .char 1] }).map
        (fun t => (t.regs[5], t.pc, t.inPending, t.inTaken)) =
          some (32767, 2, [.char 1], [32767]) ∧
      (after { start [20, 32768] with inPending := [.fail] }).map
        (fun t => (t.status, t.pc, t.inTaken)) = some (.errored .ioError, 0, []) ∧
      (after { start [20, 3] with inPending := [.char 65] }).map
        (fun t => (t.status, t.inPending)) = some (.errored .invalidRegister, [.char 65]) := by
  decide

/-- E1, E2, E6, E10, E17 (its cells that are read). -/
theorem test_error_order :
    statusPc (start []) = some (.halted .noMoreInstructions, 0) ∧
      statusPc (start [22]) = some (.errored .invalidOpcode, 0) ∧
      statusPc (start [9, 32768]) = some (.errored .memoryOutOfRange, 0) ∧
      statusPc (start [4, 5, 1, 32776]) = some (.errored .invalidArgument, 0) ∧
      statusPc { State.reset with pc := 65535, mem := ⟨[(65535, 21)], 65536⟩ } =
        some (.running, 65536) ∧
      statusPc { State.reset with pc := 65536, mem := ⟨[(65535, 21)], 65536⟩ } =
        some (.halted .noMoreInstructions, 65536) := by decide

/-- 95_test_vectors.md Part 5. -/
theorem test_image_bytes :
    imageWords [0x09, 0x00, 0x00, 0x80, 0xFF, 0x7F, 0x16, 0x00, 0x11] = [9, 32768, 32767, 22] := by
  decide

theorem test_fetch_word :
    (State.reset.withFetchWord 48 (16 + 65536 * (12 + 65536 * 9))).mem =
        Memory.ofImage [16, 12, 9, 0] ∧
      (after (State.reset.withFetchWord 48 (16 + 65536 * (12 + 65536 * 9)))).map
        (fun t => (t.mem, t.pc)) = some (⟨[(0, 16), (1, 12), (2, 9), (12, 9)], 13⟩, 3) := by decide

/-! ### Witnesses: every statement's hypotheses hold together of a concrete state and operands -/

/-- A running state with a wide value in r1, 7 in r7 and two stack entries. -/
def busy (image : List Cell16) : State :=
  { start image with regs := #v[3, 40000, 0, 0, 0, 0, 0, 7], stack := [40000, 5] }

/-- The last two cells of a full memory hold a Call. -/
def full : State := { State.reset with pc := 65534, mem := ⟨[(65534, 17)], 65536⟩ }

/-- Decoding at pc, for the witnesses below. -/
def decodesTo (s : State) (i : Instr) : Bool :=
  match decode s.fetchCells with
  | .ok (j, _) => decide (j = i)
  | .error _ => false

theorem instrAt_of_decodesTo {s : State} {i : Instr} (h : decodesTo s i = true) : s.instrAt i := by
  unfold decodesTo at h
  split at h
  · rename_i j rest hd
    exact ⟨rest, by rw [hd, of_decide_eq_true h]⟩
  · cases h

/-- ConstructionLeavesResetState, ImageBytesAreLittleEndianWords. -/
theorem witness_images :
    ([9, 40000] : List Cell16).length ≤ 65536 ∧
      (List.replicate 65536 (21 : Cell16)).length ≤ 65536 ∧
      ([1, 2, 3] : List (BitVec 8)).length / 2 ≤ 65536 ∧
      ([1, 2, 3] : List (BitVec 8))[2 * 0]? = some 1 ∧
      ([1, 2, 3] : List (BitVec 8))[2 * 0 + 1]? = some 2 :=
  ⟨by decide, le_of_eq List.length_replicate, by decide, by decide, by decide⟩

/-- EmptyImageStopsCleanlyAndLongImageIsRefused. -/
theorem witness_long_image : 65536 < (List.replicate 65537 (0 : Cell16)).length :=
  lt_of_lt_of_eq (by decide) (List.length_replicate (n := 65537)).symm

/-- DecodeOfEncodeIsIdentity, EncodeOfDecodeIsIdentity, ArityIsFixedByTheOpcodeWord. -/
theorem witness_round_trips :
    Instr.wf (.add (.register 7) (.literal 32767) (.register 0)) = true ∧
      decode [9, 32775, 32767, 32768, 1] =
        .ok (.add (.register 7) (.literal 32767) (.register 0), [1]) := ⟨by decide, rfl⟩

/-- ArgumentWordRanges, each clause at its bounds. -/
theorem witness_argument_ranges :
    (32767 : Cell16).toNat ≤ 32767 ∧ 32768 ≤ (32768 : Cell16).toNat ∧
      (32775 : Cell16).toNat ≤ 32775 ∧ 32776 ≤ (32776 : Cell16).toNat := by decide

/-- ArgumentWordBitFields, each clause at its bounds. -/
theorem witness_argument_bits :
    BitVec.extractLsb' 15 1 (32767 : Cell16) = 0 ∧ BitVec.extractLsb' 15 1 (32775 : Cell16) = 1 ∧
      BitVec.extractLsb' 3 12 (32775 : Cell16) = 0 ∧ BitVec.extractLsb' 15 1 (32776 : Cell16) = 1 ∧
      BitVec.extractLsb' 3 12 (32776 : Cell16) ≠ 0 := by decide

/-- StepExecutesTheDecodedInstruction, StepEndsInOneOfThreeWays, EveryStepKeepsMemoryCanonicalAndPcInRange,
HaltReasonsAndTheirCauses, OutputHistoryNeverInfluencesTheMachine, ErrorKindsComeFromTheirInstructionsOnly. -/
theorem witness_running_step :
    (start [21]).status = .running ∧ (start [21]).Inv ∧ decode (start [21]).fetchCells = .ok (.noop, []) ∧
      step (start [21]) = .next ((start [21]).advance 1) := ⟨rfl, by decide, rfl, rfl⟩

/-- StepExecutesTheInstructionStoredAtPc. -/
theorem witness_stored_instruction :
    (start [2, 32767]).status = .running ∧ Instr.wf (.push (.literal 32767)) = true ∧
      ∀ (k : Nat) (w : Cell16), (encode (.push (.literal 32767)))[k]? = some w →
        (start [2, 32767]).mem.read ((start [2, 32767]).pc.toNat + k) = some w := by
  refine ⟨rfl, by decide, fun k w h => ?_⟩
  match k, h with
  | 0, h => cases h; decide
  | 1, h => cases h; decide

/-- TerminalStatesAreAbsorbing, and the end of a run in RunIsRepeatedStepUntilTerminal. -/
theorem witness_over :
    ((start [0]).halt .machineHalted).Over ∧
      runFor 1 (start [0]) = .next ((start [0]).halt .machineHalted) := ⟨by decide, rfl⟩

/-- CommittedPcOfEveryInstruction, and the frames over `exec i s = .next t`. -/
theorem witness_committed_pc :
    (busy []).status = .running ∧
      exec (.jumpIfTrue (.register 0) (.literal 9)) (busy []) = .next ((busy []).jumpTo 9) ∧
      ((busy []).jumpTo 9).status = .running ∧
      exec (.pop (.register 7)) (busy []) =
        .next ((((busy []).setStack [5]).setReg 7 40000).advance 2) := ⟨rfl, rfl, rfl, rfl⟩

/-- CommittedPcOfEveryInstruction, second part, at the top of the address space. -/
theorem witness_top_of_memory : full.Inv ∧ full.instrAt (.call (.literal 0)) :=
  ⟨by decide, instrAt_of_decodesTo (by decide)⟩

/-- ResetAndConstructionMeetTheInvariant, ExtentOnlyGrows. -/
theorem witness_construct : construct [9, 40000] = .ok (start [9, 40000]) := rfl

/-- FirstFailingTestDecidesTheStep (1), (2) and OpcodeWordsAbove21AreIllegal. -/
theorem witness_first_tests :
    (start [21]).mem.extent ≤ ({ start [21] with pc := 1 } : State).pc.toNat ∧
      (start [22]).mem.read (start [22]).pc.toNat = some 22 ∧ 21 < (22 : Cell16).toNat ∧
      (start [65535]).mem.read (start [65535]).pc.toNat = some 65535 := by decide

/-- FirstFailingTestDecidesTheStep (3): the last argument word of an Add missing, and invalid. -/
theorem witness_argument_tests :
    (start [9, 32768, 32775]).mem.read 0 = some 9 ∧ arityTable[(9 : Cell16).toNat]? = some 3 ∧
      (∀ j < 2, ((start [9, 32768, 32775]).mem.read (0 + 1 + j)).any (·.toNat ≤ 32775) = true) ∧
      (start [9, 32768, 32775]).mem.read (0 + 1 + 2) = none ∧
      (start [9, 32768, 32775, 32776]).mem.read (0 + 1 + 2) = some 32776 ∧
      32776 ≤ (32776 : Cell16).toNat := by decide

/-- FirstFailingTestDecidesTheStep (4), LiteralDestinationRaisesInvalidRegister. -/
theorem witness_literal_destination :
    (start [3, 5]).instrAt (.pop (.literal 5)) ∧ Instr.dest? (.pop (.literal 5)) = some (.literal 5) ∧
      Instr.dest? (.input (.literal 0)) = some (.literal 0) :=
  ⟨instrAt_of_decodesTo (by decide), rfl, rfl⟩

/-- ErrorKindsComeFromTheirInstructionsOnly, HaltReasonsAndTheirCauses: each cause occurs. -/
theorem witness_causes :
    (start [3, 32768]).instrAt (.pop (.register 0)) ∧ (start [3, 32768]).stack = [] ∧
      (start [11, 32768, 5, 0]).instrAt (.modulo (.register 0) (.literal 5) (.literal 0)) ∧
      resolve (.literal 0) (start []).regs = .ok 0 ∧
      (start [20, 32768]).instrAt (.input (.register 0)) ∧
      ({ start [20, 32768] with inPending := [.fail] } : State).nextAnswer = .fail ∧
      full.pc.toNat = 65534 ∧ (start [0]).instrAt .halt ∧ (start [18]).instrAt .ret :=
  ⟨instrAt_of_decodesTo (by decide), rfl, instrAt_of_decodesTo (by decide), rfl,
    instrAt_of_decodesTo (by decide), rfl, by decide, instrAt_of_decodesTo (by decide),
    instrAt_of_decodesTo (by decide)⟩

/-- ErrorKindsComeFromTheirInstructionsOnly: the last argument word of an Add is reached where it is missing, and where
it is the first invalid one; and the opcode word 22 and a ReadMemory at the extent occur. -/
theorem witness_reached_arguments :
    (start [9, 32768, 32775]).reachesArgument 2 ∧
      (start [9, 32768, 32775]).mem.read ((start [9, 32768, 32775]).pc.toNat + 1 + 2) = none ∧
      (start [9, 32768, 32775, 32776]).reachesArgument 2 ∧
      (start [9, 32768, 32775, 32776]).mem.read
        ((start [9, 32768, 32775, 32776]).pc.toNat + 1 + 2) = some 32776 ∧
      (start [22]).mem.read (start [22]).pc.toNat = some 22 ∧
      (start [15, 32768, 3]).instrAt (.readMemory (.register 0) (.literal 3)) ∧
      (start [15, 32768, 3]).mem.extent ≤ (3 : Cell16).toNat := by
  refine ⟨⟨9, 3, by decide, by decide, by decide, fun j hj => ?_⟩, by decide,
    ⟨9, 3, by decide, by decide, by decide, fun j hj => ?_⟩, by decide, by decide,
    instrAt_of_decodesTo (by decide), by decide⟩ <;>
  match j, hj with
  | 0, _ => exact ⟨32768, by decide, by decide⟩
  | 1, _ => exact ⟨32775, by decide, by decide⟩

/-- ResolvedValueOfEveryOperandForm at its bounds, and the resolved operands of the statements on Set, Push, the ALU,
the jumps, Call, Output, ReadMemory and WriteMemory: a literal, a register, a wide register. -/
theorem witness_operands :
    (32767 : Cell16).toNat ≤ 32767 ∧ 32767 < (32768 : Cell16).toNat ∧ 7 < 8 ∧
      resolve (.literal 32767) (busy []).regs = .ok 32767 ∧
      resolve (.register 7) (busy []).regs = .ok 7 ∧
      resolve (.register 1) (busy []).regs = .ok 40000 ∧
      resolve (.register 2) (busy []).regs = .ok 0 :=
  ⟨by decide, by decide, by decide, rfl, rfl, rfl, rfl⟩

/-- PopMovesTheTopOrRaisesStackExhausted, ReturnPopsTheNewPcOrHalts. -/
theorem witness_stacks : (busy []).stack = 40000 :: [5] ∧ (start []).stack = [] := ⟨rfl, rfl⟩

/-- PushesThenPopsDeliverInReverse, with a repeated destination. -/
theorem witness_push_pop :
    List.Forall₂ (fun a v => resolve a (busy []).regs = .ok v)
        [.literal 1, .register 1, .register 7] [1, 40000, 7] ∧
      ([3, 3, 0] : List (Fin 8)).length = ([.literal 1, .register 1, .register 7] : List Arg).length :=
  ⟨.cons rfl (.cons rfl (.cons rfl .nil)), rfl⟩

/-- ModuloWritesTheRemainderOrRaisesArithmeticError, JumpIfTrueJumpsOnNonzero, JumpIfFalseJumpsOnZero: a zero and a
nonzero operand. -/
theorem witness_zero_tests : (0 : Cell16).toNat = 0 ∧ (32768 : Cell16).toNat ≠ 0 := by decide

/-- AluResultsFitFifteenBits. -/
theorem witness_alu :
    Instr.opcode (.bitOr (.register 0) (.register 1) (.literal 1)) ∈ [4, 5, 9, 10, 11, 12, 13, 14] ∧
      exec (.bitOr (.register 0) (.register 1) (.literal 1)) (busy []) =
        .next (((busy []).setReg 0 7233).advance 4) ∧
      (((busy []).setReg 0 7233).advance 4).status = .running := ⟨by decide, rfl, rfl⟩

/-- CallPushesTheReturnAddress, both clauses at their bound, and CallThenReturnResumesAfterTheCall. -/
theorem witness_call_bounds :
    ({ full with pc := 65533 } : State).pc.toNat + 2 ≤ 65535 ∧ 65535 < full.pc.toNat + 2 ∧
      resolve (.literal 0) full.regs = .ok 0 := ⟨by decide, by decide, rfl⟩

/-- A running machine at a Call that lies in the last two cells of its memory. -/
def callAt (pc : Nat) : State :=
  { State.reset with pc := BitVec.ofNat 17 pc, mem := ⟨[(pc, 17)], pc + 2⟩ }

/-- CallCanPushAWideReturnAddress, at both bounds of its range of pc. -/
theorem witness_wide_call :
    (callAt 32766).status = .running ∧ (callAt 32766).instrAt (.call (.literal 0)) ∧
      (callAt 32766).pc.toNat = 32766 ∧ (callAt 65533).status = .running ∧
      (callAt 65533).instrAt (.call (.literal 0)) ∧ (callAt 65533).pc.toNat = 65533 ∧
      resolve (.literal 0) State.reset.regs = .ok 0 :=
  ⟨rfl, instrAt_of_decodesTo (by decide), by decide, rfl, instrAt_of_decodesTo (by decide),
    by decide, rfl⟩

/-- ReadMemoryCopiesTheCellOrRaisesMemoryOutOfRange, both clauses at their bound. -/
theorem witness_read_bounds :
    (2 : Cell16).toNat < (start [15, 32768, 2]).mem.extent ∧
      (start [15, 32768, 3]).mem.extent ≤ (3 : Cell16).toNat := by decide

/-- WriteMemoryStoresAndGrows: an address in the memory and one beyond it, each range of `k` inhabited. -/
theorem witness_write_ranges :
    (0 : Nat) ≠ (2 : Cell16).toNat ∧ 0 < (start [16, 2, 9]).mem.extent ∧
      (start [16, 5, 9]).mem.extent ≤ 3 ∧ 3 < (5 : Cell16).toNat ∧
      (start [16, 5, 9]).mem.extent ≤ 6 ∧ (5 : Cell16).toNat < 6 ∧
      resolve (.literal 5) (start []).regs = .ok 5 :=
  ⟨by decide, by decide, by decide, by decide, by decide, by decide, rfl⟩

/-- StoreIsSeenByTheNextFetch: the store makes the next opcode word. -/
theorem witness_store_fetch :
    (start [16, 3, 7]).status = .running ∧
      (start [16, 3, 7]).instrAt (.writeMemory (.literal 3) (.literal 7)) ∧
      resolve (.literal 3) (start []).regs = .ok 3 ∧ resolve (.literal 7) (start []).regs = .ok 7 ∧
      (3 : Cell16).toNat = (start [16, 3, 7]).pc.toNat + 3 + 0 ∧
      step (start [16, 3, 7]) = .next (((start [16, 3, 7]).store 3 7).advance 3) :=
  ⟨rfl, instrAt_of_decodesTo (by decide), rfl, rfl, by decide, rfl⟩

/-- InputWritesTheCharacterOrRaisesIOError: each answer, pending in State. -/
theorem witness_answers :
    ({ start [] with inPending := [.char 32767, .fail] } : State).nextAnswer = .char 32767 ∧
      ({ start [] with inPending := [.fail] } : State).nextAnswer = .fail := ⟨rfl, rfl⟩

/-- No register of the reset state is wide. -/
theorem reset_regs_narrow : ∀ d : Fin 8, Narrow State.reset.regs[d] := by decide

/-- A step that leaves a state answers it. -/
theorem next_of_after {s : State} (h : (after s).isSome = true) : ∃ t, step s = .next t := by
  unfold after Out.state? at h
  split at h
  · exact ⟨_, ‹_›⟩
  · cases h
  · cases h

/-- NoWideValuesArise: all its hypotheses together, at a ReadMemory of a narrow cell. -/
theorem witness_no_wide_read :
    ∃ t, (start [15, 32768, 2]).NoWide ∧ (start [15, 32768, 2]).status = .running ∧
      (start [15, 32768, 2]).instrAt (.readMemory (.register 0) (.literal 2)) ∧
      step (start [15, 32768, 2]) = .next t ∧
      (∀ (a b : Arg) (addr v : Cell16),
        Instr.readMemory (.register 0) (.literal 2) = .readMemory a b →
        resolve b (start [15, 32768, 2]).regs = .ok addr →
        (start [15, 32768, 2]).mem.read addr.toNat = some v → Narrow v) ∧
      ∀ a : Arg, Instr.readMemory (.register 0) (.literal 2) = .call a →
        (start [15, 32768, 2]).pc.toNat + 2 ≤ 32767 := by
  obtain ⟨t, ht⟩ := next_of_after (s := start [15, 32768, 2]) (by decide)
  have hc : (start [15, 32768, 2]).mem.read (2 : Cell16).toNat = some 2 := by decide
  refine ⟨t, ⟨reset_regs_narrow, by simp [start, State.reset]⟩, rfl,
    instrAt_of_decodesTo (by decide), ht, ?_, by simp⟩
  intro a b addr v hi hr hv
  cases hi
  cases hr
  rw [hc] at hv
  cases hv
  decide

/-- NoWideValuesArise: a Call at the last pc that its premise allows. -/
theorem witness_no_wide_call_bound :
    ({ start [] with pc := 32765 } : State).pc.toNat + 2 ≤ 32767 := by decide

end Sys2Proof.Tests
end

namespace Sys2Proof

/-- The classification of 40_step_cycle.md R85: the storage operations are the instructions with a destination. -/
theorem Instr.dest?_isSome_iff (i : Instr) : i.dest?.isSome ↔ i.opClass = .storage := by
  cases i <;> simp [Instr.dest?, Instr.opClass]

end Sys2Proof

namespace Sys2Proof.Machine

/-! PROOFS. The family of 10_state.md: what one execution can do to registers, stack and memory, said once (`Effect`),
and the frames and the bound on wide values that follow from it; the state that construction leaves. -/

/-! ### Construction -/

/-- Cell `k` of an image's memory is word `k` of the image, and no other cell exists. -/
theorem Memory.read_ofImage (image : List Cell16) (k : Nat) :
    (Memory.ofImage image).read k = image[k]? := by
  by_cases hk : k < image.length
  · have hcell : lookupCell k (cellsFrom 0 image) = image[k] := by
      simpa using lookupCell_cellsFrom 0 k image hk
    simp [Memory.read, Memory.ofImage, hk, hcell]
  · have hle : image.length ≤ k := Nat.le_of_not_lt hk
    rw [List.getElem?_eq_none hle, Memory.read_eq_none_iff]
    exact hle

theorem construct_of_length_le {image : List Cell16} (h : image.length ≤ 65536) :
    construct image = .ok { State.reset with mem := .ofImage image } := by
  simp [construct, h]

/-- Settles O1: every field but memory is that of `State.reset`, and memory is read by `Memory.read_ofImage`. -/
theorem constructionLeavesResetState : Obligations.ConstructionLeavesResetState := by
  intro image hlen
  have hregs : ∀ d : Fin 8, State.reset.regs[d] = 0 := by simp [State.reset]
  exact ⟨_, construct_of_length_le hlen, hregs, rfl, rfl, rfl, rfl, Memory.read_ofImage image⟩

/-! ### What one execution can do -/

/-- Where a value comes from that instruction `i` writes to a register in state `s`. -/
inductive RegisterOrigin (s : State) (i : Instr) (v : Cell16) : Prop
  /-- An ALU result or a character. -/
  | computed (narrow : Narrow v)
  /-- A source operand. -/
  | operand {a : Arg} (value : resolve a s.regs = .ok v)
  /-- A stack entry. -/
  | stack (mem : v ∈ s.stack)
  /-- The memory cell that a ReadMemory addresses. -/
  | cell {a b : Arg} {addr : Cell16} (instr : i = .readMemory a b)
      (address : resolve b s.regs = .ok addr) (content : s.mem.read addr.toNat = some v)

/-- What an execution of `i` in `s` that answers `t` has done to registers, stack and memory. `exec_effect` ties it to
the dispatcher; status, pc and the collaborators are left open. -/
inductive Effect (s : State) : Instr → State → Prop
  | keep {i : Instr} {t : State} (regs : t.regs = s.regs) (stack : t.stack = s.stack)
      (mem : t.mem = s.mem) : Effect s i t
  | setReg {i : Instr} {t : State} {d : Fin 8} {v : Cell16} (dest : i.dest? = some (.register d.val))
      (origin : RegisterOrigin s i v) (regs : t.regs = s.regs.set d v) (stack : t.stack = s.stack)
      (mem : t.mem = s.mem) : Effect s i t
  | push {a : Arg} {t : State} {v : Cell16} (value : resolve a s.regs = .ok v) (regs : t.regs = s.regs)
      (stack : t.stack = v :: s.stack) (mem : t.mem = s.mem) : Effect s (.push a) t
  | call {a : Arg} {t : State} (bound : s.pc.toNat + 2 ≤ 65535) (regs : t.regs = s.regs)
      (stack : t.stack = BitVec.ofNat 16 (s.pc.toNat + 2) :: s.stack) (mem : t.mem = s.mem) :
      Effect s (.call a) t
  | pop {t : State} {d : Fin 8} {v : Cell16} (regs : t.regs = s.regs.set d v)
      (stack : s.stack = v :: t.stack) (mem : t.mem = s.mem) : Effect s (.pop (.register d.val)) t
  | ret {t : State} {v : Cell16} (regs : t.regs = s.regs) (stack : s.stack = v :: t.stack)
      (mem : t.mem = s.mem) : Effect s .ret t
  | store {a b : Arg} {t : State} {addr v : Cell16} (value : resolve b s.regs = .ok v)
      (regs : t.regs = s.regs) (stack : t.stack = s.stack) (mem : t.mem = s.mem.write addr v) :
      Effect s (.writeMemory a b) t

theorem narrow_reduce (n : Nat) : Narrow (reduce n) := by
  rw [Narrow, reduce_toNat]
  omega

theorem narrow_truthCell (p : Bool) : Narrow (truthCell p) := by
  cases p <;> decide

theorem narrow_aluNot (x : Cell16) : Narrow (aluNot x) := by
  rw [Narrow, aluNot, BitVec.toNat_and]
  exact Nat.and_le_right

theorem narrow_of_aluModulo {x y v : Cell16} (h : aluModulo x y = .ok v) : Narrow v := by
  unfold aluModulo at h
  split at h
  · cases h
  · cases h
    exact narrow_reduce _

/-- A character code has 15 bits (45_system_io.md R161). -/
theorem narrow_char (c : Value15) : Narrow (c.setWidth 16) := by
  have := c.isLt
  rw [Narrow, BitVec.toNat_setWidth]
  omega

section
variable {s t : State} {i : Instr}

theorem Effect.raise (k : ErrorKind) : Effect s i (s.raise k) := .keep rfl rfl rfl

/-- The three-argument ALU instructions have one effect, given that their operation yields narrow values only. -/
theorem binaryAlu_effect {op : Cell16 → Cell16 → Except ErrorKind Cell16} {a b c : Arg}
    (hop : ∀ x y v, op x y = .ok v → Narrow v) (hdest : i.dest? = some a)
    (h : binaryAlu op a b c s = .next t) : Effect s i t := by
  rcases binaryAlu_eq_next h with ⟨d, x, y, v, rfl, -, -, hv, rfl⟩ | ⟨k, rfl⟩
  · exact .setReg hdest (.computed (hop x y v hv)) rfl rfl rfl
  · exact .raise k

/-- The case of an operation that cannot raise. -/
theorem binaryAlu_effect_of_total {f : Cell16 → Cell16 → Cell16} {a b c : Arg}
    (hf : ∀ x y, Narrow (f x y)) (hdest : i.dest? = some a)
    (h : binaryAlu (fun x y => .ok (f x y)) a b c s = .next t) : Effect s i t :=
  binaryAlu_effect (fun x y _ hv => Except.ok.inj hv ▸ hf x y) hdest h

/-- Everything an execution can do to registers, stack and memory (40_step_cycle.md R85, R89). -/
theorem exec_effect (h : exec i s = .next t) : Effect s i t := by
  cases i with
  | halt =>
    cases execHalt_eq_next h
    exact .keep rfl rfl rfl
  | set a b =>
    rcases execSet_eq_next h with ⟨d, v, rfl, hv, rfl⟩ | ⟨k, rfl⟩
    · exact .setReg rfl (.operand hv) rfl rfl rfl
    · exact .raise k
  | push a =>
    rcases execPush_eq_next h with ⟨v, hv, rfl⟩ | ⟨k, rfl⟩
    · exact .push hv rfl rfl rfl
    · exact .raise k
  | pop a =>
    rcases execPop_eq_next h with ⟨d, v, rest, rfl, hst, rfl⟩ | ⟨k, rfl⟩
    · exact .pop rfl hst rfl
    · exact .raise k
  | equal a b c => exact binaryAlu_effect_of_total (fun _ _ => narrow_truthCell _) rfl h
  | greaterThan a b c => exact binaryAlu_effect_of_total (fun _ _ => narrow_truthCell _) rfl h
  | jump a =>
    rcases execJump_eq_next h with ⟨p, -, rfl⟩ | ⟨k, rfl⟩
    · exact .keep rfl rfl rfl
    · exact .raise k
  | jumpIfTrue a b =>
    rcases execJumpIfTrue_eq_next h with ⟨v, p, -, -, rfl⟩ | ⟨k, rfl⟩
    · split <;> exact .keep rfl rfl rfl
    · exact .raise k
  | jumpIfFalse a b =>
    rcases execJumpIfFalse_eq_next h with ⟨v, p, -, -, rfl⟩ | ⟨k, rfl⟩
    · split <;> exact .keep rfl rfl rfl
    · exact .raise k
  | add a b c => exact binaryAlu_effect_of_total (fun _ _ => narrow_reduce _) rfl h
  | multiply a b c => exact binaryAlu_effect_of_total (fun _ _ => narrow_reduce _) rfl h
  | modulo a b c => exact binaryAlu_effect (fun _ _ _ => narrow_of_aluModulo) rfl h
  | bitAnd a b c => exact binaryAlu_effect_of_total (fun _ _ => narrow_reduce _) rfl h
  | bitOr a b c => exact binaryAlu_effect_of_total (fun _ _ => narrow_reduce _) rfl h
  | not a b =>
    rcases execNot_eq_next h with ⟨d, x, rfl, -, rfl⟩ | ⟨k, rfl⟩
    · exact .setReg rfl (.computed (narrow_aluNot x)) rfl rfl rfl
    · exact .raise k
  | readMemory a b =>
    rcases execReadMemory_eq_next h with ⟨d, addr, v, rfl, ha, hv, rfl⟩ | ⟨k, rfl⟩
    · exact .setReg rfl (.cell rfl ha hv) rfl rfl rfl
    · exact .raise k
  | writeMemory a b =>
    rcases execWriteMemory_eq_next h with ⟨addr, v, -, hv, rfl⟩ | ⟨k, rfl⟩
    · exact .store hv rfl rfl rfl
    · exact .raise k
  | call a =>
    rcases execCall_eq_next h with ⟨p, -, hpc, rfl⟩ | ⟨k, rfl⟩
    · exact .call hpc rfl rfl rfl
    · exact .raise k
  | ret =>
    rcases execReturn_eq_next h with ⟨v, rest, hst, rfl⟩ | ⟨-, rfl⟩
    · exact .ret rfl hst rfl
    · exact .keep rfl rfl rfl
  | output a =>
    rcases execOutput_eq_next h with ⟨v, -, rfl⟩ | ⟨k, rfl⟩
    · exact .keep rfl rfl rfl
    · exact .raise k
  | input a =>
    rcases execInput_eq_next h with ⟨d, c, rfl, -, rfl⟩ | ⟨k, rfl⟩
    · exact .setReg rfl (.computed (narrow_char c)) rfl rfl rfl
    · exact .raise k
  | noop =>
    cases execNoop_eq_next h
    exact .keep rfl rfl rfl

/-! ### The registers, the stack and memory of an effect -/

theorem Effect.regs_cases (h : Effect s i t) :
    t.regs = s.regs ∨ ∃ (d : Fin 8) (v : Cell16), i.dest? = some (.register d.val) ∧
      RegisterOrigin s i v ∧ t.regs = s.regs.set d v := by
  cases h with
  | keep regs | push _ regs | call _ regs | ret regs | store _ regs => exact .inl regs
  | setReg dest origin regs => exact .inr ⟨_, _, dest, origin, regs⟩
  | pop regs stack => exact .inr ⟨_, _, rfl, .stack (by simp [stack]), regs⟩

theorem Effect.stack_cases (h : Effect s i t) :
    t.stack = s.stack ∨
    (∃ a v, i = .push a ∧ resolve a s.regs = .ok v ∧ t.stack = v :: s.stack) ∨
    (∃ a, i = .call a ∧ s.pc.toNat + 2 ≤ 65535 ∧
      t.stack = BitVec.ofNat 16 (s.pc.toNat + 2) :: s.stack) ∨
    ∃ v, ((∃ a, i = .pop a) ∨ i = .ret) ∧ s.stack = v :: t.stack := by
  cases h with
  | keep _ stack | setReg _ _ _ stack | store _ _ stack => exact .inl stack
  | push value _ stack => exact .inr (.inl ⟨_, _, rfl, value, stack⟩)
  | call bound _ stack => exact .inr (.inr (.inl ⟨_, rfl, bound, stack⟩))
  | pop _ stack => exact .inr (.inr (.inr ⟨_, .inl ⟨_, rfl⟩, stack⟩))
  | ret _ stack => exact .inr (.inr (.inr ⟨_, .inr rfl, stack⟩))

theorem Effect.mem_cases (h : Effect s i t) :
    t.mem = s.mem ∨ ∃ a b addr v, i = .writeMemory a b ∧ resolve b s.regs = .ok v ∧
      t.mem = s.mem.write addr v := by
  cases h with
  | keep _ _ mem | setReg _ _ _ _ mem | push _ _ _ mem | call _ _ _ mem | pop _ _ mem
  | ret _ _ mem => exact .inl mem
  | store value _ _ mem => exact .inr ⟨_, _, _, _, rfl, value, mem⟩

end

/-! ### The frames -/

theorem getElem_regs_set (regs : Vector Cell16 8) (d e : Fin 8) (v : Cell16) :
    (regs.set d v)[e] = if d = e then v else regs[e] := by
  simp [Vector.getElem_set, Fin.ext_iff]

/-- Settles O22: `Effect.regs_cases` names the only register that can have been written. -/
theorem onlyTheDestinationRegisterChanges : Obligations.OnlyTheDestinationRegisterChanges := by
  intro i s t h
  refine ⟨fun d hd => ?_, i.dest?_isSome_iff, fun hclass => ?_⟩
  · rcases (exec_effect h).regs_cases with regs | ⟨e, v, hdest, -, regs⟩
    · rw [regs]
    · have hne : e ≠ d := fun he => hd (he ▸ hdest)
      rw [regs, getElem_regs_set, if_neg hne]
  · rcases (exec_effect h).regs_cases with regs | ⟨e, v, hdest, -, -⟩
    · exact regs
    · have hstorage : i.opClass = .storage := i.dest?_isSome_iff.1 (by simp [hdest])
      simp [hstorage] at hclass

/-- Settles O24: each case of `Effect.stack_cases` names the instructions it belongs to. -/
theorem onlyPushPopCallReturnTouchTheStack : Obligations.OnlyPushPopCallReturnTouchTheStack := by
  intro i s t h
  rcases (exec_effect h).stack_cases with
    stack | ⟨a, v, rfl, -, stack⟩ | ⟨a, rfl, -, stack⟩ | ⟨v, ⟨a, rfl⟩ | rfl, stack⟩
  · cases i <;> simp [stack]
  · exact .inr ⟨v, stack⟩
  · exact .inr ⟨_, stack⟩
  · exact .inr ⟨v, stack⟩
  · exact .inr ⟨v, stack⟩

/-! ### Wide values -/

theorem step_of_instrAt {s : State} {i : Instr} (hrun : s.status = .running) (hi : s.instrAt i) :
    step s = exec i s := by
  obtain ⟨rest, hdec⟩ := hi
  simp [step, hrun, hdec]

/-- A source operand of a state without wide values is narrow: a Literal by the resolver's check, a register by
hypothesis. -/
theorem narrow_of_resolve {a : Arg} {regs : Vector Cell16 8} {v : Cell16}
    (hregs : ∀ d : Fin 8, Narrow regs[d]) (h : resolve a regs = .ok v) : Narrow v := by
  cases a with
  | literal w =>
    simp only [resolve] at h
    split at h
    · cases h
      assumption
    · cases h
  | register r =>
    simp only [resolve] at h
    split at h
    · rename_i hr
      cases h
      exact hregs ⟨r, hr⟩
    · cases h

/-- A wide cell after the store of a narrow value was there before it: every cell the store creates is narrow. -/
theorem Memory.read_of_wide_read_write {m : Memory} {addr v w : Cell16} {k : Nat} (hv : Narrow v)
    (hread : (m.write addr v).read k = some w) (hw : ¬ Narrow w) : m.read k = some w := by
  by_cases hk : k = addr.toNat
  · subst hk
    rw [Memory.read_write_same] at hread
    cases hread
    exact absurd hv hw
  · rw [Memory.read_write_other _ _ _ _ hk] at hread
    split at hread
    · exact hread
    · split at hread
      · cases hread
        exact absurd (by decide) hw
      · cases hread

/-- If `i` is a ReadMemory, the cell it addresses in `s` holds no wide value: the premise of 10_state.md R29. -/
def State.ReadsNoWideCell (s : State) (i : Instr) : Prop :=
  ∀ (a b : Arg) (addr v : Cell16), i = .readMemory a b → resolve b s.regs = .ok addr →
    s.mem.read addr.toNat = some v → Narrow v

/-- 10_state.md R29: a value a register receives is narrow if no register, no stack entry and no cell read holds a
wide one. -/
theorem RegisterOrigin.narrow {s : State} {i : Instr} {v : Cell16} (h : RegisterOrigin s i v)
    (hs : s.NoWide)
    (hread : s.ReadsNoWideCell i) : Narrow v := by
  cases h with
  | computed narrow => exact narrow
  | operand value => exact narrow_of_resolve hs.1 value
  | stack mem => exact hs.2 v mem
  | cell instr address content => exact hread _ _ _ v instr address content

theorem Effect.regs_narrow {s t : State} {i : Instr} (h : Effect s i t) (hs : s.NoWide)
    (hread : s.ReadsNoWideCell i) (e : Fin 8) : Narrow t.regs[e] := by
  rcases h.regs_cases with regs | ⟨d, v, -, origin, regs⟩
  · rw [regs]
    exact hs.1 e
  · rw [regs, getElem_regs_set]
    split
    · exact origin.narrow hs hread
    · exact hs.1 e

theorem Effect.stack_narrow {s t : State} {i : Instr} (h : Effect s i t) (hs : s.NoWide)
    (hcall : ∀ a : Arg, i = .call a → s.pc.toNat + 2 ≤ 32767) : ∀ v ∈ t.stack, Narrow v := by
  rcases h.stack_cases with
    stack | ⟨a, v, -, value, stack⟩ | ⟨a, rfl, -, stack⟩ | ⟨v, -, stack⟩
  · rw [stack]
    exact hs.2
  · rw [stack]
    exact List.forall_mem_cons.2 ⟨narrow_of_resolve hs.1 value, hs.2⟩
  · have hpc := hcall a rfl
    rw [stack]
    refine List.forall_mem_cons.2 ⟨?_, hs.2⟩
    rw [Narrow, BitVec.toNat_ofNat]
    omega
  · exact fun w hw => hs.2 w (by simp [stack, hw])

theorem Effect.read_of_wide {s t : State} {i : Instr} (h : Effect s i t) (hs : s.NoWide) {k : Nat}
    {v : Cell16} (hread : t.mem.read k = some v) (hv : ¬ Narrow v) : s.mem.read k = some v := by
  rcases h.mem_cases with mem | ⟨a, b, addr, w, -, value, mem⟩
  · rwa [← mem]
  · rw [mem] at hread
    exact Memory.read_of_wide_read_write (narrow_of_resolve hs.1 value) hread hv

/-- Settles O59: the step is one execution, and its effect puts no wide value into a register, onto the stack or into
memory. -/
theorem noWideValuesArise : Obligations.NoWideValuesArise := by
  intro s t i hs hrun hi hstep hread hcall
  have heff : Effect s i t := exec_effect (step_of_instrAt hrun hi ▸ hstep)
  exact ⟨⟨heff.regs_narrow hs hread, heff.stack_narrow hs hcall⟩,
    fun k v hk hv => heff.read_of_wide hs hk hv⟩

end Sys2Proof.Machine

namespace Sys2Proof

/-! PROOFS. The family of 20_memory.md: what the decoder has read (so that an instruction at pc lies in memory), the pc
an execution commits, what one step does to memory and pc, and the statements on memory that follow. -/

/-! ### What the decoder has read -/

/-- The opcode number `op` and the argument words `ws` up to `rest` are those of the well-formed instruction `i`
(30_encoding.md R60). -/
def WordsOf (i : Instr) (op : Nat) (ws rest : List Cell16) : Prop :=
  i.opcode = op ∧ i.wf = true ∧ i.args.map encodeArg ++ rest = ws

section
variable {op : Nat} {ws rest : List Cell16} {i : Instr}

theorem wordsOf_of_decode1 {mk : Arg → Instr}
    (hmk : ∀ a, (mk a).opcode = op ∧ (mk a).args = [a])
    (h : decode1 mk ws = .ok (i, rest)) : WordsOf i op ws rest := by
  obtain ⟨a, w, rfl, rfl, hw⟩ := decode1_eq_ok h
  obtain ⟨ha, rfl⟩ := decodeArg_eq_ok hw
  obtain ⟨hop, hargs⟩ := hmk a
  exact ⟨hop, by simp [Instr.wf, hargs, ha], by simp [hargs]⟩

theorem wordsOf_of_decode2 {mk : Arg → Arg → Instr}
    (hmk : ∀ a b, (mk a b).opcode = op ∧ (mk a b).args = [a, b])
    (h : decode2 mk ws = .ok (i, rest)) : WordsOf i op ws rest := by
  obtain ⟨a, b, w, x, rfl, rfl, hw, hx⟩ := decode2_eq_ok h
  obtain ⟨ha, rfl⟩ := decodeArg_eq_ok hw
  obtain ⟨hb, rfl⟩ := decodeArg_eq_ok hx
  obtain ⟨hop, hargs⟩ := hmk a b
  exact ⟨hop, by simp [Instr.wf, hargs, ha, hb], by simp [hargs]⟩

theorem wordsOf_of_decode3 {mk : Arg → Arg → Arg → Instr}
    (hmk : ∀ a b c, (mk a b c).opcode = op ∧ (mk a b c).args = [a, b, c])
    (h : decode3 mk ws = .ok (i, rest)) : WordsOf i op ws rest := by
  obtain ⟨a, b, c, w, x, y, rfl, rfl, hw, hx, hy⟩ := decode3_eq_ok h
  obtain ⟨ha, rfl⟩ := decodeArg_eq_ok hw
  obtain ⟨hb, rfl⟩ := decodeArg_eq_ok hx
  obtain ⟨hc, rfl⟩ := decodeArg_eq_ok hy
  obtain ⟨hop, hargs⟩ := hmk a b c
  exact ⟨hop, by simp [Instr.wf, hargs, ha, hb, hc], by simp [hargs]⟩

/-- Everything a successful decode of the argument words can be, by the format of the opcode number
(30_encoding.md R61, R66). -/
theorem decodeBody_eq_ok (h : decodeBody op ws = .ok (i, rest)) : WordsOf i op ws rest := by
  unfold decodeBody at h
  split at h
  · cases h; exact ⟨rfl, rfl, rfl⟩
  · exact wordsOf_of_decode2 (fun _ _ => ⟨rfl, rfl⟩) h
  · exact wordsOf_of_decode1 (fun _ => ⟨rfl, rfl⟩) h
  · exact wordsOf_of_decode1 (fun _ => ⟨rfl, rfl⟩) h
  · exact wordsOf_of_decode3 (fun _ _ _ => ⟨rfl, rfl⟩) h
  · exact wordsOf_of_decode3 (fun _ _ _ => ⟨rfl, rfl⟩) h
  · exact wordsOf_of_decode1 (fun _ => ⟨rfl, rfl⟩) h
  · exact wordsOf_of_decode2 (fun _ _ => ⟨rfl, rfl⟩) h
  · exact wordsOf_of_decode2 (fun _ _ => ⟨rfl, rfl⟩) h
  · exact wordsOf_of_decode3 (fun _ _ _ => ⟨rfl, rfl⟩) h
  · exact wordsOf_of_decode3 (fun _ _ _ => ⟨rfl, rfl⟩) h
  · exact wordsOf_of_decode3 (fun _ _ _ => ⟨rfl, rfl⟩) h
  · exact wordsOf_of_decode3 (fun _ _ _ => ⟨rfl, rfl⟩) h
  · exact wordsOf_of_decode3 (fun _ _ _ => ⟨rfl, rfl⟩) h
  · exact wordsOf_of_decode2 (fun _ _ => ⟨rfl, rfl⟩) h
  · exact wordsOf_of_decode2 (fun _ _ => ⟨rfl, rfl⟩) h
  · exact wordsOf_of_decode2 (fun _ _ => ⟨rfl, rfl⟩) h
  · exact wordsOf_of_decode1 (fun _ => ⟨rfl, rfl⟩) h
  · cases h; exact ⟨rfl, rfl, rfl⟩
  · exact wordsOf_of_decode1 (fun _ => ⟨rfl, rfl⟩) h
  · exact wordsOf_of_decode1 (fun _ => ⟨rfl, rfl⟩) h
  · cases h; exact ⟨rfl, rfl, rfl⟩
  · cases h

/-- Everything a successful decode can be: an opcode word, and the instruction it stands for with its argument words. -/
theorem decode_eq_ok (h : decode ws = .ok (i, rest)) :
    ∃ w args, ws = w :: args ∧ WordsOf i w.toNat args rest := by
  cases ws with
  | nil => cases h
  | cons w args => exact ⟨w, args, rfl, decodeBody_eq_ok h⟩

/-- A decode takes the opcode word and as many argument words as the arity says. -/
theorem decode_length (h : decode ws = .ok (i, rest)) : ws.length = 1 + i.arity + rest.length := by
  obtain ⟨w, args, rfl, -, -, rfl⟩ := decode_eq_ok h
  simp only [Instr.arity_eq_length_args, List.length_cons, List.length_append, List.length_map]
  omega

end

end Sys2Proof

namespace Sys2Proof.Machine

/-! ### Construction and the invariant -/

theorem construct_eq_ok {image : List Cell16} {s : State} (h : construct image = .ok s) :
    image.length ≤ 65536 ∧ s = { State.reset with mem := .ofImage image } := by
  unfold construct at h
  split at h
  · cases h
    exact ⟨‹_›, rfl⟩
  · cases h

/-- Settles O18: both memories are images of at most 65536 words, and pc is 0. -/
theorem resetAndConstructionMeetTheInvariant : Obligations.ResetAndConstructionMeetTheInvariant := by
  refine ⟨⟨Memory.wf_ofImage (image := []) (by simp), Nat.zero_le _⟩, fun image s h => ?_⟩
  obtain ⟨hlen, rfl⟩ := construct_eq_ok h
  exact ⟨Memory.wf_ofImage hlen, Nat.zero_le _⟩

/-! ### The pc an execution commits -/

/-- Where the pc can be after an execution of `i` in `s` (40_step_cycle.md R90). -/
inductive NextPc (s : State) (i : Instr) : Pc → Prop
  /-- An error or a halt. -/
  | stay : NextPc s i s.pc
  /-- The word after the instruction. -/
  | advance : NextPc s i (s.pc + BitVec.ofNat 17 (1 + i.arity))
  /-- The 16-bit target of a transfer. -/
  | target (v : Cell16) : NextPc s i (v.setWidth 17)

section
variable {s t : State} {i : Instr}

theorem binaryAlu_nextPc {op : Cell16 → Cell16 → Except ErrorKind Cell16} {a b c : Arg}
    (harity : i.arity = 3) (h : binaryAlu op a b c s = .next t) : NextPc s i t.pc := by
  rcases binaryAlu_eq_next h with ⟨d, x, y, v, -, -, -, -, rfl⟩ | ⟨k, rfl⟩
  · simpa [harity] using NextPc.advance (s := s) (i := i)
  · exact .stay

/-- Every pc an execution can commit. -/
theorem exec_nextPc (h : exec i s = .next t) : NextPc s i t.pc := by
  cases i with
  | halt =>
    cases execHalt_eq_next h
    exact .stay
  | set a b =>
    rcases execSet_eq_next h with ⟨d, v, -, -, rfl⟩ | ⟨k, rfl⟩
    · exact .advance
    · exact .stay
  | push a =>
    rcases execPush_eq_next h with ⟨v, -, rfl⟩ | ⟨k, rfl⟩
    · exact .advance
    · exact .stay
  | pop a =>
    rcases execPop_eq_next h with ⟨d, v, rest, -, -, rfl⟩ | ⟨k, rfl⟩
    · exact .advance
    · exact .stay
  | equal a b c => exact binaryAlu_nextPc (op := fun x y => .ok (aluEqual x y)) rfl h
  | greaterThan a b c => exact binaryAlu_nextPc (op := fun x y => .ok (aluGreaterThan x y)) rfl h
  | jump a =>
    rcases execJump_eq_next h with ⟨p, -, rfl⟩ | ⟨k, rfl⟩
    · exact .target p
    · exact .stay
  | jumpIfTrue a b =>
    rcases execJumpIfTrue_eq_next h with ⟨v, p, -, -, rfl⟩ | ⟨k, rfl⟩
    · split
      · exact .advance
      · exact .target p
    · exact .stay
  | jumpIfFalse a b =>
    rcases execJumpIfFalse_eq_next h with ⟨v, p, -, -, rfl⟩ | ⟨k, rfl⟩
    · split
      · exact .target p
      · exact .advance
    · exact .stay
  | add a b c => exact binaryAlu_nextPc (op := fun x y => .ok (aluAdd x y)) rfl h
  | multiply a b c => exact binaryAlu_nextPc (op := fun x y => .ok (aluMultiply x y)) rfl h
  | modulo a b c => exact binaryAlu_nextPc rfl h
  | bitAnd a b c => exact binaryAlu_nextPc (op := fun x y => .ok (aluAnd x y)) rfl h
  | bitOr a b c => exact binaryAlu_nextPc (op := fun x y => .ok (aluOr x y)) rfl h
  | not a b =>
    rcases execNot_eq_next h with ⟨d, x, -, -, rfl⟩ | ⟨k, rfl⟩
    · exact .advance
    · exact .stay
  | readMemory a b =>
    rcases execReadMemory_eq_next h with ⟨d, addr, v, -, -, -, rfl⟩ | ⟨k, rfl⟩
    · exact .advance
    · exact .stay
  | writeMemory a b =>
    rcases execWriteMemory_eq_next h with ⟨addr, v, -, -, rfl⟩ | ⟨k, rfl⟩
    · exact .advance
    · exact .stay
  | call a =>
    rcases execCall_eq_next h with ⟨p, -, -, rfl⟩ | ⟨k, rfl⟩
    · exact .target p
    · exact .stay
  | ret =>
    rcases execReturn_eq_next h with ⟨v, rest, -, rfl⟩ | ⟨-, rfl⟩
    · exact .target v
    · exact .stay
  | output a =>
    rcases execOutput_eq_next h with ⟨v, -, rfl⟩ | ⟨k, rfl⟩
    · exact .advance
    · exact .stay
  | input a =>
    rcases execInput_eq_next h with ⟨d, c, -, -, rfl⟩ | ⟨k, rfl⟩
    · exact .advance
    · exact .stay
  | noop =>
    cases execNoop_eq_next h
    exact .advance

/-- An advance that stays below 131072 does not wrap (10_state.md R25, D6). -/
theorem toNat_pc_add {p : Pc} {n : Nat} (h : p.toNat + n < 131072) :
    (p + BitVec.ofNat 17 n).toNat = p.toNat + n := by
  rw [BitVec.toNat_add, BitVec.toNat_ofNat]
  omega

/-- The words of the instruction at pc all exist. -/
theorem State.instrAt.words_le_extent (h : s.instrAt i) :
    s.pc.toNat + 1 + i.arity ≤ s.mem.extent := by
  obtain ⟨rest, hdec⟩ := h
  have hlen : s.fetchCells.length = 1 + i.arity + rest.length := decode_length hdec
  have hfour : s.fetchCells.length ≤ 4 := fetchCells_length_le s
  have hlast : s.fetchCells[i.arity]? = s.mem.read (s.pc.toNat + i.arity) :=
    fetchCells_getElem? s i.arity (by omega)
  rw [List.getElem?_eq_getElem (by omega)] at hlast
  have := Memory.lt_extent_of_read hlast.symm
  omega

/-- A pc that an instruction in a memory of at most 65536 cells commits is at most 65536 (10_state.md R25). -/
theorem NextPc.le {p : Pc} (h : NextPc s i p) (hpc : s.pc.toNat ≤ 65536)
    (hwords : s.pc.toNat + 1 + i.arity ≤ 65536) : p.toNat ≤ 65536 := by
  cases h with
  | stay => exact hpc
  | advance =>
    rw [toNat_pc_add (by omega)]
    omega
  | target v =>
    have := v.isLt
    rw [BitVec.toNat_setWidth]
    omega

/-! ### What one step does to memory and pc -/

/-- Everything a step can answer: a change of the status alone, which covers a terminal state and a failed decode, or
the execution of the instruction at pc. -/
theorem step_eq_next (h : step s = .next t) :
    (∃ st, t = { s with status := st }) ∨ ∃ i, s.instrAt i ∧ exec i s = .next t := by
  rcases step_cases h with ⟨-, ho⟩ | ⟨e, -, -, ho⟩ | ⟨i, rest, -, hdec, ho⟩
  · cases ho
    exact .inl ⟨_, rfl⟩
  · cases ho
    obtain ⟨st, hst, -⟩ := decodeFailed_eq s e
    exact .inl ⟨st, hst⟩
  · exact .inr ⟨i, ⟨rest, hdec⟩, ho.symm⟩

theorem step_mem_cases (h : step s = .next t) :
    t.mem = s.mem ∨
      ∃ a b addr v, s.instrAt (.writeMemory a b) ∧ t.mem = s.mem.write addr v := by
  rcases step_eq_next h with ⟨st, rfl⟩ | ⟨i, hi, hexec⟩
  · exact .inl rfl
  · rcases (exec_effect hexec).mem_cases with mem | ⟨a, b, addr, v, rfl, -, mem⟩
    · exact .inl mem
    · exact .inr ⟨a, b, addr, v, hi, mem⟩

theorem step_keeps_mem_wf (hwf : s.mem.wf) (h : step s = .next t) : t.mem.wf := by
  rcases step_mem_cases h with mem | ⟨a, b, addr, v, -, mem⟩
  · exact mem ▸ hwf
  · exact mem ▸ Memory.wf_write hwf addr v

theorem step_keeps_pc_in_range (hs : s.Inv) (h : step s = .next t) : t.pc.toNat ≤ 65536 := by
  obtain ⟨⟨-, -, hextent⟩, hpc⟩ := hs
  rcases step_eq_next h with ⟨st, rfl⟩ | ⟨i, hi, hexec⟩
  · exact hpc
  · exact (exec_nextPc hexec).le hpc (hi.words_le_extent.trans hextent)

end

/-- Settles O17: memory by `Memory.wf_write`, the pc because an instruction that is executed lies in memory. -/
theorem everyStepKeepsMemoryCanonicalAndPcInRange :
    Obligations.EveryStepKeepsMemoryCanonicalAndPcInRange :=
  fun _ _ hs hstep => ⟨step_keeps_mem_wf hs.1 hstep, step_keeps_pc_in_range hs hstep⟩

/-! ### The frame of memory -/

/-- Settles O21: `step_mem_cases` leaves memory as it was or writes one 16-bit address. -/
theorem extentOnlyGrows : Obligations.ExtentOnlyGrows := by
  refine ⟨fun image s h => ?_, fun s t h => ?_⟩
  · obtain ⟨-, rfl⟩ := construct_eq_ok h
    rfl
  · rcases step_mem_cases h with mem | ⟨a, b, addr, v, hi, mem⟩
    · rw [mem]
      exact ⟨le_rfl, fun hne => absurd rfl hne, id, fun _ => id⟩
    · have haddr : addr.toNat < 65536 := addr.isLt
      simp only [mem, Memory.write_extent, Memory.read_isSome_iff]
      exact ⟨by omega, fun _ => ⟨a, b, hi⟩, by omega, by omega⟩

/-- Settles O23: an effect on memory is that of a WriteMemory. -/
theorem onlyWriteMemoryChangesMemory : Obligations.OnlyWriteMemoryChangesMemory := by
  intro i s t h hne
  rcases (exec_effect h).mem_cases with mem | ⟨a, b, addr, v, hi, -, -⟩
  · rw [mem]
    exact ⟨rfl, fun _ => rfl⟩
  · exact absurd hi (hne a b)

/-! ### WriteMemory -/

theorem exec_writeMemory_of_ok {a b : Arg} {addr v : Cell16} {s : State}
    (ha : resolve a s.regs = .ok addr) (hb : resolve b s.regs = .ok v) :
    exec (.writeMemory a b) s = .next ((s.store addr v).advance 3) := by
  simp [exec, execWriteMemory, withValue_of_ok ha, withValue_of_ok hb]

/-- Settles O53: the next state is a store and an advance, and `Memory.read_write_same` and
`Memory.read_write_other` read its cells. -/
theorem writeMemoryStoresAndGrows : Obligations.WriteMemoryStoresAndGrows := by
  intro a b addr v s ha hb
  refine ⟨_, exec_writeMemory_of_ok ha hb, rfl, ?_, ?_, fun k hne hk => ?_, fun k hk hlt => ?_,
    fun k hk hlt => ?_⟩ <;> simp only [State.advance_mem, State.store_mem]
  · rw [Memory.write_extent]
    split <;> omega
  · exact Memory.read_write_same s.mem addr v
  · rw [Memory.read_write_other _ _ _ _ hne, if_pos hk]
  · rw [Memory.read_write_other _ _ _ _ (by omega), if_neg (by omega), if_pos hlt]
  · rw [Memory.read_write_other _ _ _ _ (by omega), if_neg (by omega), if_neg (by omega)]

/-- Settles O54: the advance does not wrap below a 16-bit address, so word `k` of the next fetch is the cell that was
stored. -/
theorem storeIsSeenByTheNextFetch : Obligations.StoreIsSeenByTheNextFetch := by
  intro s t a b addr v k hrun hi ha hb haddr hk hstep
  rw [step_of_instrAt hrun hi, exec_writeMemory_of_ok ha hb] at hstep
  cases hstep
  have hlt : addr.toNat < 65536 := addr.isLt
  have hpc : ((s.store addr v).advance 3).pc.toNat = s.pc.toNat + 3 :=
    toNat_pc_add (p := s.pc) (by omega)
  refine ⟨hrun, ?_⟩
  rw [fetchCells_getElem? _ k hk, hpc, ← haddr]
  exact Memory.read_write_same s.mem addr v

end Sys2Proof.Machine

namespace Sys2Proof

/-! PROOFS. The family of 30_encoding.md: the argument word by range and by bits, the two directions of the round trip
between words and instructions, and what the opcode word alone decides. -/

/-! ### The argument word -/

theorem decodeArg_literal {w : Cell16} (h : w.toNat ≤ 32767) : decodeArg w = .ok (.literal w) := by
  simp [decodeArg, h]

theorem decodeArg_register {w : Cell16} (h : 32768 ≤ w.toNat) (h' : w.toNat ≤ 32775) :
    decodeArg w = .ok (.register (w.toNat - 32768)) := by
  unfold decodeArg
  rw [if_neg (by omega), if_pos h']

theorem decodeArg_invalid {w : Cell16} (h : 32776 ≤ w.toNat) : decodeArg w = .error .invalidArgument := by
  unfold decodeArg
  rw [if_neg (by omega), if_neg (by omega)]

/-- Settles O7: each range is one branch of the argument decoder. -/
theorem argumentWordRanges : Obligations.ArgumentWordRanges :=
  fun _ => ⟨decodeArg_literal, decodeArg_register, decodeArg_invalid⟩

/-- A field of a word is the quotient and remainder of its value by powers of two. -/
theorem extractLsb'_eq_iff (w : Cell16) (start len : Nat) (b : BitVec len) :
    w.extractLsb' start len = b ↔ w.toNat / 2 ^ start % 2 ^ len = b.toNat := by
  rw [← BitVec.toNat_inj, BitVec.extractLsb'_toNat, Nat.shiftRight_eq_div_pow]

theorem bit15_eq_zero_iff (w : Cell16) : w.extractLsb' 15 1 = 0 ↔ w.toNat ≤ 32767 := by
  have := w.isLt
  have hzero : (0 : BitVec 1).toNat = 0 := rfl
  rw [extractLsb'_eq_iff, hzero]
  omega

theorem bit15_eq_one_iff (w : Cell16) : w.extractLsb' 15 1 = 1 ↔ 32768 ≤ w.toNat := by
  have := w.isLt
  have hone : (1 : BitVec 1).toNat = 1 := rfl
  rw [extractLsb'_eq_iff, hone]
  omega

theorem bits14To3_eq_zero_iff (w : Cell16) : w.extractLsb' 3 12 = 0 ↔ w.toNat % 32768 ≤ 7 := by
  have hzero : (0 : BitVec 12).toNat = 0 := rfl
  rw [extractLsb'_eq_iff, hzero]
  omega

/-- The low 15 bits are the whole of a word whose bit 15 is clear. -/
theorem bits14To0_eq_self {w : Cell16} (h : w.toNat ≤ 32767) : (w.extractLsb' 0 15).setWidth 16 = w := by
  apply BitVec.eq_of_toNat_eq
  simp only [BitVec.toNat_setWidth, BitVec.extractLsb'_toNat, Nat.shiftRight_zero]
  omega

/-- The low three bits of a register word are its index. -/
theorem bits2To0_toNat {w : Cell16} (h : 32768 ≤ w.toNat) (h' : w.toNat ≤ 32775) :
    (w.extractLsb' 0 3).toNat = w.toNat - 32768 := by
  simp only [BitVec.extractLsb'_toNat, Nat.shiftRight_zero]
  omega

/-- Settles O8: bit 15 and bits 14 to 3 say in which of the three ranges the word lies, and the field read is the
literal or the index of that range. -/
theorem argumentWordBitFields : Obligations.ArgumentWordBitFields := by
  intro w
  have hw := w.isLt
  rw [bit15_eq_zero_iff, bit15_eq_one_iff, ne_eq, bits14To3_eq_zero_iff]
  refine ⟨fun htop => ?_, fun htop hmid => ?_, fun htop hmid => decodeArg_invalid (by omega)⟩
  · rw [bits14To0_eq_self htop, decodeArg_literal htop]
  · have hle : w.toNat ≤ 32775 := by omega
    rw [bits2To0_toNat htop hle, decodeArg_register htop hle]

/-! ### From instructions to words and back -/

section
variable {a b c : Arg}

theorem all_wf_cons {as : List Arg} (h : (a :: as).all Arg.wf = true) : a.wf = true ∧ as.all Arg.wf = true := by
  simpa using h

theorem decode1_encodeArgs {mk : Arg → Instr} (h : [a].all Arg.wf = true) (rest : List Cell16) :
    decode1 mk ([a].map encodeArg ++ rest) = .ok (mk a, rest) := by
  obtain ⟨ha, -⟩ := all_wf_cons h
  exact decode1_cons (decodeArg_encodeArg ha) rest

theorem decode2_encodeArgs {mk : Arg → Arg → Instr} (h : [a, b].all Arg.wf = true) (rest : List Cell16) :
    decode2 mk ([a, b].map encodeArg ++ rest) = .ok (mk a b, rest) := by
  obtain ⟨ha, hb⟩ := all_wf_cons h
  exact (decode2_cons (decodeArg_encodeArg ha) _).trans (decode1_encodeArgs hb rest)

theorem decode3_encodeArgs {mk : Arg → Arg → Arg → Instr} (h : [a, b, c].all Arg.wf = true)
    (rest : List Cell16) : decode3 mk ([a, b, c].map encodeArg ++ rest) = .ok (mk a b c, rest) := by
  obtain ⟨ha, hbc⟩ := all_wf_cons h
  exact (decode3_cons (decodeArg_encodeArg ha) _).trans (decode2_encodeArgs hbc rest)

end

/-- The opcode map read in both directions: the opcode number chooses the format that reads back the argument words
(30_encoding.md R61, R66). -/
theorem decodeBody_opcode_args {i : Instr} (h : i.wf = true) (rest : List Cell16) :
    decodeBody i.opcode (i.args.map encodeArg ++ rest) = .ok (i, rest) := by
  cases i with
  | halt | ret | noop => rfl
  | push a | pop a | jump a | call a | output a | input a => exact decode1_encodeArgs h rest
  | set a b | jumpIfTrue a b | jumpIfFalse a b | not a b | readMemory a b | writeMemory a b =>
    exact decode2_encodeArgs h rest
  | equal a b c | greaterThan a b c | add a b c | multiply a b c | modulo a b c | bitAnd a b c
  | bitOr a b c => exact decode3_encodeArgs h rest

/-- Settles O4: the opcode word holds the opcode number, and each argument word decodes to its argument. -/
theorem decodeOfEncodeIsIdentity : Obligations.DecodeOfEncodeIsIdentity := by
  intro i rest h
  simp only [encode, List.cons_append, decode, Instr.opcode_word]
  exact decodeBody_opcode_args h rest

/-- Settles O5: what decodes is an opcode word and the argument words of a well-formed instruction. -/
theorem encodeOfDecodeIsIdentity : Obligations.EncodeOfDecodeIsIdentity := by
  intro ws i rest h
  obtain ⟨w, args, rfl, hop, hwf, rfl⟩ := decode_eq_ok h
  exact ⟨hwf, by simp [encode, hop]⟩

/-- Settles O6: each encoding is the opcode number and the argument list of its constructor. -/
theorem opcodeMapOfAllInstructions : Obligations.OpcodeMapOfAllInstructions := by
  intro a b c
  exact ⟨rfl, rfl, rfl, rfl, rfl, rfl, rfl, rfl, rfl, rfl, rfl, rfl, rfl, rfl, rfl, rfl, rfl, rfl, rfl, rfl,
    rfl, rfl⟩

/-- Settles O10: each list of words is the encoding of its instruction, so the round trip O4 decodes it. -/
theorem specWordsDecodeToTheirInstructions : Obligations.SpecWordsDecodeToTheirInstructions :=
  ⟨decodeOfEncodeIsIdentity (.add (.register 0) (.register 1) (.literal 4)) [19, 32768, 0] rfl,
    decodeOfEncodeIsIdentity (.output (.register 0)) [0] rfl,
    decodeOfEncodeIsIdentity (.writeMemory (.literal 7) (.literal 72)) [] rfl,
    decodeOfEncodeIsIdentity (.jumpIfTrue (.register 1) (.literal 13)) [] rfl,
    decodeOfEncodeIsIdentity .ret [] rfl, decodeOfEncodeIsIdentity (.input (.register 7)) [] rfl⟩

/-! ### What the opcode word decides -/

/-- The arity table of 30_encoding.md R65, read by its values. -/
theorem arityTable_values : ∀ op < 22,
    (arityTable[op]? = some 0 ↔ op ∈ [0, 18, 21]) ∧
    (arityTable[op]? = some 1 ↔ op ∈ [2, 3, 6, 17, 19, 20]) ∧
    (arityTable[op]? = some 2 ↔ op ∈ [1, 7, 8, 14, 15, 16]) ∧
    (arityTable[op]? = some 3 ↔ op ∈ [4, 5, 9, 10, 11, 12, 13]) := by decide

/-- Settles O9: the opcode word holds the opcode number, whose entry in the arity table is the instruction's arity. -/
theorem arityIsFixedByTheOpcodeWord : Obligations.ArityIsFixedByTheOpcodeWord := by
  intro w ws i rest h
  have hop : i.opcode = w.toNat := (decodeBody_eq_ok h).1
  have hlen : 1 + ws.length = 1 + i.arity + rest.length := by
    rw [← decode_length h, List.length_cons, Nat.add_comm]
  have hvalues := arityTable_values i.opcode (by have := i.opcode_le; omega)
  simp only [i.arityTable_opcode, Option.some_inj] at hvalues
  rw [← hop]
  exact ⟨rfl, by omega, hvalues⟩

theorem ArgsFail.ne_invalidOpcode {n : Nat} {ws : List Cell16} {e : DecodeError} (h : ArgsFail n ws e) :
    e ≠ .invalidOpcode := by
  obtain ⟨k, -, -, ⟨-, rfl⟩ | ⟨v, -, -, rfl⟩⟩ := h <;> simp

theorem decodeBody_of_illegal {op : Nat} (h : 22 ≤ op) (ws : List Cell16) :
    decodeBody op ws = .error .invalidOpcode := by
  cases hd : decodeBody op ws with
  | ok p =>
    have hop : p.1.opcode = op := (decodeBody_eq_ok hd).1
    have := p.1.opcode_le
    omega
  | error e =>
    rcases decodeBody_eq_error hd with ⟨-, rfl⟩ | ⟨n, hn, -⟩
    · rfl
    · rw [List.getElem?_eq_none h] at hn
      cases hn

theorem decode_cons_eq_invalidOpcode_iff (w : Cell16) (ws : List Cell16) :
    decode (w :: ws) = .error .invalidOpcode ↔ 22 ≤ w.toNat := by
  refine ⟨fun h => ?_, fun h => decodeBody_of_illegal h ws⟩
  rcases decodeBody_eq_error h with ⟨hw, -⟩ | ⟨n, -, hfail⟩
  · exact hw
  · exact absurd rfl hfail.ne_invalidOpcode

end Sys2Proof

namespace Sys2Proof.Machine

/-- A fetch begins with the cell at pc, where it exists. -/
theorem fetchCells_of_read {s : State} {w : Cell16} (h : s.mem.read s.pc.toNat = some w) :
    ∃ ws, s.fetchCells = w :: ws := by
  have h0 : s.fetchCells.head? = some w := by
    rw [List.head?_eq_getElem?, fetchCells_getElem? s 0 (by omega)]
    exact h
  exact ⟨_, List.eq_cons_of_mem_head? h0⟩

/-- Settles O20: an argument word that fails never fails as an illegal opcode, so that failure comes from the opcode word
alone; a failed decode writes only the status. -/
theorem opcodeWordsAbove21AreIllegal : Obligations.OpcodeWordsAbove21AreIllegal := by
  intro w ws
  refine ⟨decode_cons_eq_invalidOpcode_iff w ws, fun s hrun hread hw => ?_⟩
  obtain ⟨args, hfetch⟩ := fetchCells_of_read hread
  exact step_of_decode_error hrun (hfetch ▸ (decode_cons_eq_invalidOpcode_iff w args).mpr hw)

end Sys2Proof.Machine

namespace Sys2Proof

/-- No instruction has more than MAX_ARITY arguments (00_scope.md R6), so its words fit a fetch of four cells. -/
theorem Instr.arity_le (i : Instr) : i.arity ≤ 3 := by
  cases i <;> simp [Instr.arity]

end Sys2Proof

namespace Sys2Proof.Machine

/-! PROOFS. The family of 40_step_cycle.md: the instruction a step executes, the operand forms, that every step answers
a next state, how an execution ends (`Success`, an error or a halt), and repeated steps. -/

/-! ### The instruction a step executes -/

/-- Settles O11: the cells at pc decode, so `step` is the execution of what they decode to. -/
theorem stepExecutesTheDecodedInstruction : Obligations.StepExecutesTheDecodedInstruction :=
  fun _ _ rest hrun hdec => step_of_instrAt hrun ⟨rest, hdec⟩

/-- A fetch begins with the words of an instruction that memory holds at pc: there are at most four of them. -/
theorem encode_prefix_fetchCells {s : State} {i : Instr}
    (h : ∀ (k : Nat) (w : Cell16), (encode i)[k]? = some w → s.mem.read (s.pc.toNat + k) = some w) :
    encode i <+: s.fetchCells := by
  refine List.prefix_iff_getElem?.2 fun k hk => ?_
  have hlt : k < 1 + i.arity := encode_length i ▸ hk
  have harity := i.arity_le
  rw [fetchCells_getElem? s k (by omega)]
  exact h k _ (List.getElem?_eq_getElem hk)

/-- Settles O12: the fetch is the instruction's words and some more cells, which by O4 decodes to the instruction. -/
theorem stepExecutesTheInstructionStoredAtPc : Obligations.StepExecutesTheInstructionStoredAtPc := by
  intro s i hrun hwf hmem
  obtain ⟨rest, hfetch⟩ := encode_prefix_fetchCells hmem
  exact step_of_instrAt hrun ⟨rest, hfetch ▸ decodeOfEncodeIsIdentity i rest hwf⟩

/-! ### Operand forms -/

theorem resolve_literal_wide {w : Cell16} (h : 32767 < w.toNat) (regs : Vector Cell16 8) :
    resolve (.literal w) regs = .error .invalidLiteral := if_neg (Nat.not_le.2 h)

theorem resolve_register_above {i : Nat} (h : 7 < i) (regs : Vector Cell16 8) :
    resolve (.register i) regs = .error .invalidRegister := dif_neg (Nat.not_lt.2 h)

/-- Settles O32: each form is one branch of the resolver. -/
theorem resolvedValueOfEveryOperandForm : Obligations.ResolvedValueOfEveryOperandForm :=
  fun regs => ⟨fun _ h => resolve_literal_ok h regs, fun _ h => resolve_literal_wide h regs,
    fun d => resolve_register_ok d regs, fun _ h => resolve_register_above h regs⟩

/-- An instruction with a destination checks it before anything else (40_step_cycle.md R86). -/
theorem exec_eq_withDest {i : Instr} {a : Arg} (h : i.dest? = some a) (s : State) :
    ∃ go, exec i s = withDest a s go := by
  cases i with
  | halt | ret | noop | push | jump | jumpIfTrue | jumpIfFalse | writeMemory | call | output => cases h
  | set | pop | equal | greaterThan | add | multiply | modulo | bitAnd | bitOr | not | readMemory
  | input =>
    cases h
    exact ⟨_, rfl⟩

/-- Settles O29: the destination check comes first, and no Literal passes it. -/
theorem literalDestinationRaisesInvalidRegister :
    Obligations.LiteralDestinationRaisesInvalidRegister := by
  intro i w s hdest
  obtain ⟨go, hexec⟩ := exec_eq_withDest hdest s
  exact hexec.trans (withDest_literal w s go)

/-- The three-argument instructions are the binary ALU operations (42_alu.md R111 to R117). -/
theorem exec_eq_binaryAlu {i : Instr} (h : i.arity = 3) (s : State) :
    ∃ op a b c, i.dest? = some a ∧ exec i s = binaryAlu op a b c s := by
  cases i with
  | equal => exact ⟨fun x y => .ok (aluEqual x y), _, _, _, rfl, rfl⟩
  | greaterThan => exact ⟨fun x y => .ok (aluGreaterThan x y), _, _, _, rfl, rfl⟩
  | add => exact ⟨fun x y => .ok (aluAdd x y), _, _, _, rfl, rfl⟩
  | multiply => exact ⟨fun x y => .ok (aluMultiply x y), _, _, _, rfl, rfl⟩
  | modulo => exact ⟨aluModulo, _, _, _, rfl, rfl⟩
  | bitAnd => exact ⟨fun x y => .ok (aluAnd x y), _, _, _, rfl, rfl⟩
  | bitOr => exact ⟨fun x y => .ok (aluOr x y), _, _, _, rfl, rfl⟩
  | _ => cases h

/-! ### Every step answers a next state -/

section
variable {s : State} {a : Arg}

theorem withDest_answers {go : Fin 8 → Out} (h : ∀ d, ∃ t, go d = .next t) :
    ∃ t, withDest a s go = .next t := by
  unfold withDest
  split
  · exact h _
  · exact ⟨_, rfl⟩

theorem withValue_answers {go : Cell16 → Out} (h : ∀ v, ∃ t, go v = .next t) :
    ∃ t, withValue a s go = .next t := by
  unfold withValue
  split
  · exact h _
  · exact ⟨_, rfl⟩

theorem exec_answers_of_arity_three {i : Instr} (h : i.arity = 3) : ∃ t, exec i s = .next t := by
  obtain ⟨op, a, b, c, -, halu⟩ := exec_eq_binaryAlu h s
  rw [halu]
  exact withDest_answers fun _ => withValue_answers fun _ => withValue_answers fun _ => by
    split <;> exact ⟨_, rfl⟩

end

/-- No instruction is without an effect, and none stops the machine outside its own status (40_step_cycle.md R85). -/
theorem exec_answers (i : Instr) (s : State) : ∃ t, exec i s = .next t := by
  cases i with
  | halt | noop => exact ⟨_, rfl⟩
  | push | jump | output => exact withValue_answers fun _ => ⟨_, rfl⟩
  | set | not => exact withDest_answers fun _ => withValue_answers fun _ => ⟨_, rfl⟩
  | equal | greaterThan | add | multiply | modulo | bitAnd | bitOr =>
    exact exec_answers_of_arity_three rfl
  | writeMemory => exact withValue_answers fun _ => withValue_answers fun _ => ⟨_, rfl⟩
  | jumpIfTrue | jumpIfFalse =>
    exact withValue_answers fun _ => withValue_answers fun _ => by split <;> exact ⟨_, rfl⟩
  | pop | input => exact withDest_answers fun _ => by split <;> exact ⟨_, rfl⟩
  | readMemory =>
    exact withDest_answers fun _ => withValue_answers fun _ => by split <;> exact ⟨_, rfl⟩
  | call => exact withValue_answers fun _ => by split <;> exact ⟨_, rfl⟩
  | ret =>
    simp only [exec, execReturn]
    split <;> exact ⟨_, rfl⟩

/-- Settles O15: a terminal state and a failed decode answer by definition, an execution by `exec_answers`. -/
theorem everyStepAnswersANextState : Obligations.EveryStepAnswersANextState := by
  intro s
  rcases step_cases (s := s) rfl with ⟨-, hstep⟩ | ⟨e, -, -, hstep⟩ | ⟨i, rest, -, -, hstep⟩
  · exact ⟨_, hstep⟩
  · exact ⟨_, hstep⟩
  · exact hstep ▸ exec_answers i s

/-! ### How an execution ends -/

/-- The next state of an execution of `i` in `s` that ends in success: what it writes and the pc it commits
(40_step_cycle.md R89, R90). `exec_ends` ties it to the dispatcher; the value that a destination register receives is
left open. -/
inductive Success (s : State) : Instr → State → Prop
  | setReg {i : Instr} {d : Fin 8} (v : Cell16) (dest : i.dest? = some (.register d.val)) :
      Success s i ((s.setReg d v).advance (1 + i.arity))
  | pop {d : Fin 8} {v : Cell16} {rest : List Cell16} (stack : s.stack = v :: rest) :
      Success s (.pop (.register d.val)) (((s.setStack rest).setReg d v).advance 2)
  | input {d : Fin 8} (c : Value15) :
      Success s (.input (.register d.val)) (((s.takeChar c).setReg d (c.setWidth 16)).advance 2)
  | push {a : Arg} (v : Cell16) : Success s (.push a) ((s.pushCell v).advance 2)
  | output {a : Arg} (v : Cell16) : Success s (.output a) ((s.outChar v).advance 2)
  | store {a b : Arg} {addr v : Cell16} (address : resolve a s.regs = .ok addr)
      (value : resolve b s.regs = .ok v) : Success s (.writeMemory a b) ((s.store addr v).advance 3)
  | noop : Success s .noop (s.advance 1)
  | jump {a : Arg} {p : Cell16} (target : resolve a s.regs = .ok p) : Success s (.jump a) (s.jumpTo p)
  | jumpIfTrue {a b : Arg} {v p : Cell16} (condition : resolve a s.regs = .ok v)
      (target : resolve b s.regs = .ok p) :
      Success s (.jumpIfTrue a b) (s.setPc (if v = 0 then s.pc + 3 else p.setWidth 17))
  | jumpIfFalse {a b : Arg} {v p : Cell16} (condition : resolve a s.regs = .ok v)
      (target : resolve b s.regs = .ok p) :
      Success s (.jumpIfFalse a b) (s.setPc (if v = 0 then p.setWidth 17 else s.pc + 3))
  | call {a : Arg} {p : Cell16} (target : resolve a s.regs = .ok p) :
      Success s (.call a) ((s.pushCell (BitVec.ofNat 16 (s.pc.toNat + 2))).jumpTo p)
  | ret {v : Cell16} {rest : List Cell16} (stack : s.stack = v :: rest) :
      Success s .ret ((s.setStack rest).jumpTo v)

section
variable {s t : State} {i : Instr}

theorem exec_ends_of_arity_three (harity : i.arity = 3) (h : exec i s = .next t) :
    (∃ k, t = s.raise k) ∨ (∃ r, t = s.halt r) ∨ Success s i t := by
  obtain ⟨op, a, b, c, hdest, halu⟩ := exec_eq_binaryAlu harity s
  rcases binaryAlu_eq_next (halu ▸ h) with ⟨d, x, y, v, rfl, -, -, -, rfl⟩ | hk
  · have hsuccess : Success s i ((s.setReg d v).advance (1 + i.arity)) := .setReg v hdest
    rw [harity] at hsuccess
    exact .inr (.inr hsuccess)
  · exact .inl hk

/-- The three ways an execution ends: an error, a halt, a success. -/
theorem exec_ends (h : exec i s = .next t) :
    (∃ k, t = s.raise k) ∨ (∃ r, t = s.halt r) ∨ Success s i t := by
  cases i with
  | halt => exact .inr (.inl ⟨_, execHalt_eq_next h⟩)
  | set a b =>
    rcases execSet_eq_next h with ⟨d, v, rfl, -, rfl⟩ | hk
    · exact .inr (.inr (.setReg v rfl))
    · exact .inl hk
  | push a =>
    rcases execPush_eq_next h with ⟨v, -, rfl⟩ | hk
    · exact .inr (.inr (.push v))
    · exact .inl hk
  | pop a =>
    rcases execPop_eq_next h with ⟨d, v, rest, rfl, hst, rfl⟩ | hk
    · exact .inr (.inr (.pop hst))
    · exact .inl hk
  | equal | greaterThan | add | multiply | modulo | bitAnd | bitOr =>
    exact exec_ends_of_arity_three rfl h
  | jump a =>
    rcases execJump_eq_next h with ⟨p, hp, rfl⟩ | hk
    · exact .inr (.inr (.jump hp))
    · exact .inl hk
  | jumpIfTrue a b =>
    rcases execJumpIfTrue_eq_next h with ⟨v, p, hv, hp, ht⟩ | hk
    · rw [ht.trans (apply_ite s.setPc (v = 0) (s.pc + 3) (p.setWidth 17)).symm]
      exact .inr (.inr (.jumpIfTrue hv hp))
    · exact .inl hk
  | jumpIfFalse a b =>
    rcases execJumpIfFalse_eq_next h with ⟨v, p, hv, hp, ht⟩ | hk
    · rw [ht.trans (apply_ite s.setPc (v = 0) (p.setWidth 17) (s.pc + 3)).symm]
      exact .inr (.inr (.jumpIfFalse hv hp))
    · exact .inl hk
  | not a b =>
    rcases execNot_eq_next h with ⟨d, x, rfl, -, rfl⟩ | hk
    · exact .inr (.inr (.setReg _ rfl))
    · exact .inl hk
  | readMemory a b =>
    rcases execReadMemory_eq_next h with ⟨d, addr, v, rfl, -, -, rfl⟩ | hk
    · exact .inr (.inr (.setReg v rfl))
    · exact .inl hk
  | writeMemory a b =>
    rcases execWriteMemory_eq_next h with ⟨addr, v, ha, hv, rfl⟩ | hk
    · exact .inr (.inr (.store ha hv))
    · exact .inl hk
  | call a =>
    rcases execCall_eq_next h with ⟨p, hp, -, rfl⟩ | hk
    · exact .inr (.inr (.call hp))
    · exact .inl hk
  | ret =>
    rcases execReturn_eq_next h with ⟨v, rest, hst, rfl⟩ | ⟨-, ht⟩
    · exact .inr (.inr (.ret hst))
    · exact .inr (.inl ⟨_, ht⟩)
  | output a =>
    rcases execOutput_eq_next h with ⟨v, -, rfl⟩ | hk
    · exact .inr (.inr (.output v))
    · exact .inl hk
  | input a =>
    rcases execInput_eq_next h with ⟨d, c, rfl, -, rfl⟩ | hk
    · exact .inr (.inr (.input c))
    · exact .inl hk
  | noop =>
    cases execNoop_eq_next h
    exact .inr (.inr .noop)

/-! ### What a success leaves -/

/-- No success touches the status. -/
theorem Success.status_eq (h : Success s i t) : t.status = s.status := by
  cases h <;> rfl

/-- A success writes the destination register and no other. -/
theorem Success.regs_cases (h : Success s i t) :
    (i.dest? = none ∧ t.regs = s.regs) ∨
      ∃ (d : Fin 8) (v : Cell16), i.dest? = some (.register d.val) ∧ t.regs = s.regs.set d v := by
  cases h with
  | setReg v dest => exact .inr ⟨_, v, dest, rfl⟩
  | pop | input => exact .inr ⟨_, _, rfl, rfl⟩
  | push | output | store | noop | jump | jumpIfTrue | jumpIfFalse | call | ret => exact .inl ⟨rfl, rfl⟩

/-- A success makes at most one output or input transaction. -/
theorem Success.collaborators_cases (h : Success s i t) :
    (t.outTrace = s.outTrace ∧ t.inTaken = s.inTaken ∧ t.inPending = s.inPending) ∨
      (t.inTaken = s.inTaken ∧ t.inPending = s.inPending ∧ ∃ v, t.outTrace = s.outTrace ++ [v]) ∨
      (t.outTrace = s.outTrace ∧ t.inPending = s.inPending.tail ∧ ∃ c, t.inTaken = s.inTaken ++ [c]) := by
  cases h with
  | output v => exact .inr (.inl ⟨rfl, rfl, v, rfl⟩)
  | input c => exact .inr (.inr ⟨rfl, rfl, c, rfl⟩)
  | setReg | pop | push | store | noop | jump | jumpIfTrue | jumpIfFalse | call | ret =>
    exact .inl ⟨rfl, rfl, rfl⟩

end

/-- A failed decode is an error or a clean stop (40_step_cycle.md R81 to R83). -/
theorem decodeFailed_cases (s : State) (e : DecodeError) :
    (∃ k, s.decodeFailed e = s.raise k) ∨ ∃ r, s.decodeFailed e = s.halt r := by
  cases e with
  | noOpcodeWord => exact .inr ⟨_, rfl⟩
  | invalidOpcode | missingArgument | invalidArgument => exact .inl ⟨_, rfl⟩

/-- 40_step_cycle.md R89: an execution pushes one entry, pops one, or leaves the stack alone. -/
theorem exec_stack_cases {s t : State} {i : Instr} (h : exec i s = .next t) :
    t.stack = s.stack ∨ (∃ v, t.stack = v :: s.stack) ∨ ∃ v, s.stack = v :: t.stack := by
  rcases (exec_effect h).stack_cases with
    stack | ⟨-, v, -, -, stack⟩ | ⟨-, -, -, stack⟩ | ⟨v, -, stack⟩
  · exact .inl stack
  · exact .inr (.inl ⟨v, stack⟩)
  · exact .inr (.inl ⟨_, stack⟩)
  · exact .inr (.inr ⟨v, stack⟩)

/-- An execution of another instruction than WriteMemory leaves memory as the same data. -/
theorem exec_mem_eq {s t : State} {i : Instr} (h : exec i s = .next t)
    (hne : ∀ a b, i ≠ .writeMemory a b) : t.mem = s.mem := by
  rcases (exec_effect h).mem_cases with mem | ⟨a, b, addr, v, hi, -, -⟩
  · exact mem
  · exact absurd hi (hne a b)

theorem exec_writeMemory_mem {s t : State} {a b : Arg} {addr v : Cell16}
    (h : exec (.writeMemory a b) s = .next t) (ha : resolve a s.regs = .ok addr)
    (hb : resolve b s.regs = .ok v) : t.mem = s.mem.write addr v := by
  rw [exec_writeMemory_of_ok ha hb] at h
  cases h
  rfl

/-- Settles O14: a failed decode writes only the status, and so does an execution that is no `Success`. -/
theorem stepEndsInOneOfThreeWays : Obligations.StepEndsInOneOfThreeWays := by
  intro s t hrun hstep
  rcases step_cases hstep with ⟨hover, -⟩ | ⟨e, -, -, ho⟩ | ⟨i, rest, -, hdec, ho⟩
  · exact absurd hrun hover
  · cases ho
    exact (decodeFailed_cases s e).imp_right .inl
  · have hexec : exec i s = .next t := ho.symm
    rcases exec_ends hexec with hk | hr | hsuccess
    · exact .inl hk
    · exact .inr (.inl hr)
    · refine .inr (.inr ⟨i, ⟨rest, hdec⟩, hsuccess.status_eq.trans hrun, hsuccess.regs_cases, ?_,
        exec_mem_eq hexec, exec_stack_cases hexec, hsuccess.collaborators_cases⟩)
      rintro a b addr v rfl
      exact exec_writeMemory_mem hexec

/-- Settles O16: each constructor of `Success` shows the pc it commits, and the words of an instruction at pc lie in a
memory of at most 65536 cells. -/
theorem committedPcOfEveryInstruction : Obligations.CommittedPcOfEveryInstruction := by
  refine ⟨fun i s t _ hexec ht => ?_, fun i s hs hi => ?_⟩
  · rcases exec_ends hexec with ⟨k, rfl⟩ | ⟨r, rfl⟩ | hsuccess
    · cases ht
    · cases ht
    · cases hsuccess with
      | setReg v dest =>
        cases i with
        | halt | ret | jump | jumpIfTrue | jumpIfFalse | call => cases dest
        | _ => rfl
      | pop | input | push | output | store | noop => rfl
      | jump target | call target => exact ⟨_, target, rfl⟩
      | jumpIfTrue condition target | jumpIfFalse condition target =>
        exact ⟨_, _, condition, target, if_congr BitVec.toNat_inj.symm rfl rfl⟩
      | ret stack => exact ⟨_, stack, rfl⟩
  · obtain ⟨⟨-, -, hextent⟩, -⟩ := hs
    exact hi.words_le_extent.trans hextent

/-! ### Repeated steps -/

/-- Settles O13: a step in a terminal state answers the same state, and so does every number of them. -/
theorem terminalStatesAreAbsorbing : Obligations.TerminalStatesAreAbsorbing := by
  intro s n h
  induction n with
  | zero => rfl
  | succ n ih => exact (core_run_succ (step_of_over h) n).trans ih

/-- A run of `n + m` steps is a run of `m` steps from where `n` steps lead. -/
theorem core_run_add {s t : State} {n : Nat} (h : core.run n s = .next t) (m : Nat) :
    core.run (n + m) s = core.run m t := by
  induction n generalizing s with
  | zero =>
    cases h
    rw [Nat.zero_add]
  | succ n ih =>
    obtain ⟨u, hstep⟩ := everyStepAnswersANextState s
    rw [core_run_succ hstep] at h
    rw [Nat.succ_add, core_run_succ hstep, ih h]

theorem runFor_of_over {s : State} (h : s.Over) (n : Nat) : runFor n s = .next s := by
  cases n with
  | zero => rfl
  | succ n =>
    unfold runFor
    split
    · exact absurd ‹_› h
    · rfl
    · rfl

/-- 40_step_cycle.md R91: while Running, Run takes a step and goes on. -/
theorem runFor_succ {s t : State} (hrun : s.status = .running) (h : step s = .next t) (n : Nat) :
    runFor (n + 1) s = runFor n t := by
  simp [runFor, hrun, h]

theorem runFor_eq_core_run (n : Nat) (s : State) : runFor n s = core.run n s := by
  induction n generalizing s with
  | zero => rfl
  | succ n ih =>
    by_cases hrun : s.status = .running
    · obtain ⟨t, hstep⟩ := everyStepAnswersANextState s
      rw [runFor_succ hrun hstep, core_run_succ hstep, ih t]
    · exact (runFor_of_over hrun _).trans (terminalStatesAreAbsorbing s _ hrun).symm

/-- Settles O31: Run is the host's run, whose further steps do nothing once it is over. -/
theorem runIsRepeatedStepUntilTerminal : Obligations.RunIsRepeatedStepUntilTerminal := by
  intro n m s t
  refine ⟨runFor_eq_core_run n s, fun h hover => ?_⟩
  rw [runFor_eq_core_run] at h ⊢
  exact (core_run_add h m).trans (terminalStatesAreAbsorbing t m hover)

end Sys2Proof.Machine

namespace Sys2Proof.Machine

/-! PROOFS. The family of 41_move_and_stack.md: what Set, Push and Pop answer, sequences of executions, and the law of
N pushes and N pops. -/

/-! ### Set, Push, Pop -/

theorem exec_set_of_ok {b : Arg} {v : Cell16} {s : State} (d : Fin 8) (h : resolve b s.regs = .ok v) :
    exec (.set (.register d.val) b) s = .next ((s.setReg d v).advance 3) := by
  simp [exec, execSet, withValue_of_ok h]

theorem exec_push_of_ok {a : Arg} {v : Cell16} {s : State} (h : resolve a s.regs = .ok v) :
    exec (.push a) s = .next ((s.pushCell v).advance 2) := by
  simp [exec, execPush, withValue_of_ok h]

theorem exec_pop_of_cons {v : Cell16} {rest : List Cell16} {s : State} (d : Fin 8)
    (h : s.stack = v :: rest) :
    exec (.pop (.register d.val)) s = .next (((s.setStack rest).setReg d v).advance 2) := by
  simp [exec, execPop, h]

theorem exec_pop_of_nil {s : State} (d : Fin 8) (h : s.stack = []) :
    exec (.pop (.register d.val)) s = .next (s.raise .stackExhausted) := by
  simp [exec, execPop, h]

/-- Settles O33: the fields that the register write and the advance by 3 leave are those of the statement. -/
theorem setCopiesTheSource : Obligations.SetCopiesTheSource :=
  fun d _ _ _ h => exec_set_of_ok d h

/-- Settles O34: the push and the advance by 2, field by field. -/
theorem pushAddsTheSourceOnTop : Obligations.PushAddsTheSourceOnTop :=
  fun _ _ _ h => exec_push_of_ok h

/-- Settles O35: one lemma for each form of the stack. -/
theorem popMovesTheTopOrRaisesStackExhausted : Obligations.PopMovesTheTopOrRaisesStackExhausted :=
  fun d _ => ⟨fun _ _ h => exec_pop_of_cons d h, fun h => exec_pop_of_nil d h⟩

/-! ### Sequences of executions -/

theorem execAll_cons {i : Instr} {s t : State} (h : exec i s = .next t) (is : List Instr) :
    execAll (i :: is) s = execAll is t := by
  simp [execAll, h]

/-- The executions of `is ++ js` are those of `js` from where those of `is` lead. -/
theorem execAll_append {is : List Instr} {s t : State} (h : execAll is s = .next t) (js : List Instr) :
    execAll (is ++ js) s = execAll js t := by
  induction is generalizing s with
  | nil =>
    cases h
    rfl
  | cons i is ih =>
    obtain ⟨u, hi⟩ := exec_answers i s
    rw [execAll_cons hi] at h
    rw [List.cons_append, execAll_cons hi, ih h]

theorem State.advance_advance (s : State) (m n : Nat) :
    (s.advance m).advance n = s.advance (m + n) := by
  simp only [State.advance, State.setPc, BitVec.add_assoc, BitVec.ofNat_add]

/-! ### N pushes and N pops (41_move_and_stack.md R103) -/

/-- Pushes put their values on the stack, the last one on top; they write no register, so every operand keeps the value
it has at the start. -/
theorem execAll_pushes {ops : List Arg} {vals : List Cell16} {s : State}
    (h : List.Forall₂ (fun a v => resolve a s.regs = .ok v) ops vals) :
    execAll (ops.map Instr.push) s =
      .next ((s.setStack (vals.reverse ++ s.stack)).advance (2 * ops.length)) := by
  induction ops generalizing vals s with
  | nil =>
    cases h
    simp [execAll, State.advance, State.setPc, State.setStack]
  | cons a ops ih =>
    obtain ⟨v, vals, ha, hops, rfl⟩ := List.forall₂_cons_left_iff.1 h
    rw [List.map_cons, execAll_cons (exec_push_of_ok ha), ih (s := (s.pushCell v).advance 2) hops,
      List.reverse_cons, List.append_assoc, List.length_cons, Nat.mul_succ, Nat.add_comm,
      ← State.advance_advance]
    rfl

/-- Pops take the values from the top of the stack, first one first, each into its own register. -/
theorem execAll_pops {ds : List (Fin 8)} {vals rest : List Cell16} {s : State}
    (hlen : ds.length = vals.length) (hstack : s.stack = vals ++ rest) :
    execAll (ds.map fun d => Instr.pop (.register d.val)) s =
      .next { (s.setStack rest).advance (2 * ds.length) with
        regs := (ds.zip vals).foldl (fun r p => r.set p.1 p.2) s.regs } := by
  induction ds generalizing vals s with
  | nil =>
    cases List.length_eq_zero_iff.1 hlen.symm
    cases hstack
    simp [execAll, State.advance, State.setPc, State.setStack]
  | cons d ds ih =>
    obtain _ | ⟨v, vals⟩ := vals
    · cases hlen
    · rw [List.map_cons, execAll_cons (exec_pop_of_cons d hstack), ih (Nat.succ.inj hlen) rfl,
        List.length_cons, Nat.mul_succ, Nat.add_comm, ← State.advance_advance]
      rfl

/-- Settles O36: the pops find the pushed values in reverse order on top of the old stack. -/
theorem pushesThenPopsDeliverInReverse : Obligations.PushesThenPopsDeliverInReverse := by
  intro ops vals ds s hvals hlen
  have hpops : ds.length = vals.reverse.length := by
    rw [List.length_reverse, hlen, hvals.length_eq]
  have hpc : 4 * ops.length = 2 * ops.length + 2 * ds.length := by omega
  rw [execAll_append (execAll_pushes hvals), execAll_pops hpops rfl, hpc, BitVec.ofNat_add,
    ← BitVec.add_assoc]
  rfl

end Sys2Proof.Machine

namespace Sys2Proof.Machine

/-! PROOFS. The family of 42_alu.md: each ALU operation in the terms of its rule, and what the eight instructions
answer, by `binaryAlu_of_ok`, `binaryAlu_of_error` and `exec_not_of_ok`. -/

/-! ### The operations -/

theorem aluEqual_eq (x y : Cell16) : aluEqual x y = if x.toNat = y.toNat then 1 else 0 := by
  simp only [aluEqual, truthCell, decide_eq_true_eq, BitVec.toNat_inj]

theorem aluGreaterThan_eq (x y : Cell16) : aluGreaterThan x y = if y.toNat < x.toNat then 1 else 0 := by
  simp only [aluGreaterThan, truthCell, decide_eq_true_eq]

theorem aluModulo_of_ne_zero {x y : Cell16} (h : y.toNat ≠ 0) :
    aluModulo x y = .ok (reduce (x.toNat % y.toNat)) := if_neg h

theorem aluModulo_of_eq_zero {x y : Cell16} (h : y.toNat = 0) :
    aluModulo x y = .error .arithmeticError := if_pos h

/-- The reduction of a cell clears bit 15 and keeps the others (42_alu.md R110). -/
theorem getLsbD_reduce_toNat (w : Cell16) {k : Nat} (hk : k < 16) :
    (reduce w.toNat).getLsbD k = (decide (k < 15) && w.getLsbD k) := by
  have hmodulus : Config.modulus = 2 ^ 15 := rfl
  rw [reduce, BitVec.getLsbD_ofNat, decide_eq_true hk, Bool.true_and, hmodulus,
    Nat.testBit_mod_two_pow, BitVec.testBit_toNat]

theorem toNat_aluNot (x : Cell16) : (aluNot x).toNat = 32767 - x.toNat % 32768 := by
  have hx := x.isLt
  have hlow : (aluNot x).toNat = (2 ^ 16 - 1 - x.toNat) % 2 ^ 15 := by
    rw [aluNot, BitVec.toNat_and, BitVec.toNat_not]
    exact Nat.and_two_pow_sub_one_eq_mod _ 15
  omega

theorem aluNot_eq (x : Cell16) : aluNot x = BitVec.ofNat 16 (32767 - x.toNat % 32768) := by
  rw [← toNat_aluNot, BitVec.ofNat_toNat, BitVec.setWidth_eq]

/-- The complement twice leaves the low 15 bits. -/
theorem aluNot_aluNot (x : Cell16) : aluNot (aluNot x) = BitVec.ofNat 16 (x.toNat % 32768) := by
  rw [aluNot_eq (aluNot x), toNat_aluNot]
  congr 1
  omega

/-! ### The instructions -/

/-- The destination register holds the result when the instruction has ended. -/
theorem getElem_regs_setReg_advance (s : State) (d : Fin 8) (v : Cell16) (n : Nat) :
    ((s.setReg d v).advance n).regs[d] = v :=
  (getElem_regs_set s.regs d d v).trans (if_pos rfl)

/-- The answer of an operation that cannot raise. -/
theorem binaryAlu_of_total (f : Cell16 → Cell16 → Cell16) {b c : Arg} {s : State} {x y : Cell16}
    (d : Fin 8) (hx : resolve b s.regs = .ok x) (hy : resolve c s.regs = .ok y) :
    binaryAlu (fun x y => .ok (f x y)) (.register d.val) b c s =
      .next ((s.setReg d (f x y)).advance 4) := binaryAlu_of_ok hx hy rfl

/-- An operation that raises leaves the destination register alone (42_alu.md R115). -/
theorem binaryAlu_of_error {op : Cell16 → Cell16 → Except ErrorKind Cell16} {b c : Arg} {s : State}
    {x y : Cell16} {k : ErrorKind} (d : Fin 8) (hx : resolve b s.regs = .ok x)
    (hy : resolve c s.regs = .ok y) (hop : op x y = .error k) :
    binaryAlu op (.register d.val) b c s = .next (s.raise k) := by
  simp [binaryAlu, withValue_of_ok hx, withValue_of_ok hy, hop]

theorem exec_not_of_ok {b : Arg} {x : Cell16} {s : State} (d : Fin 8) (h : resolve b s.regs = .ok x) :
    exec (.not (.register d.val) b) s = .next ((s.setReg d (aluNot x)).advance 3) := by
  simp [exec, execNot, withValue_of_ok h]

/-- Settles O37: cells are equal when their values are. -/
theorem equalWritesOneOrZero : Obligations.EqualWritesOneOrZero :=
  fun d _ _ x y _ hx hy => aluEqual_eq x y ▸ binaryAlu_of_total aluEqual d hx hy

/-- Settles O38: the comparison is one of values. -/
theorem greaterThanWritesOneOrZero : Obligations.GreaterThanWritesOneOrZero :=
  fun d _ _ x y _ hx hy => aluGreaterThan_eq x y ▸ binaryAlu_of_total aluGreaterThan d hx hy

/-- Settles O39: `aluAdd` is the reduced sum. -/
theorem addWritesTheSumModulo32768 : Obligations.AddWritesTheSumModulo32768 :=
  fun d _ _ _ _ _ hx hy => binaryAlu_of_total aluAdd d hx hy

/-- Settles O40: `aluMultiply` is the reduced product. -/
theorem multiplyWritesTheProductModulo32768 : Obligations.MultiplyWritesTheProductModulo32768 :=
  fun d _ _ _ _ _ hx hy => binaryAlu_of_total aluMultiply d hx hy

/-- Settles O41: one case for each branch of `aluModulo`. -/
theorem moduloWritesTheRemainderOrRaisesArithmeticError :
    Obligations.ModuloWritesTheRemainderOrRaisesArithmeticError :=
  fun d _ _ _ _ _ hx hy =>
    ⟨fun h => binaryAlu_of_ok hx hy (aluModulo_of_ne_zero h),
      fun h => binaryAlu_of_error d hx hy (aluModulo_of_eq_zero h)⟩

/-- Settles O42: the reduction keeps the low 15 bits of the conjunction. -/
theorem bitAndWritesTheConjunctionOfTheLow15Bits :
    Obligations.BitAndWritesTheConjunctionOfTheLow15Bits := by
  intro d b c x y s hx hy
  refine ⟨aluAnd x y, binaryAlu_of_total aluAnd d hx hy, fun k hk => ?_⟩
  rw [aluAnd, getLsbD_reduce_toNat _ hk, BitVec.getLsbD_and]

/-- Settles O43: the reduction keeps the low 15 bits of the disjunction. -/
theorem bitOrWritesTheDisjunctionOfTheLow15Bits :
    Obligations.BitOrWritesTheDisjunctionOfTheLow15Bits := by
  intro d b c x y s hx hy
  refine ⟨aluOr x y, binaryAlu_of_total aluOr d hx hy, fun k hk => ?_⟩
  rw [aluOr, getLsbD_reduce_toNat _ hk, BitVec.getLsbD_or]

/-- Settles O44: the second Not reads the register that the first one wrote, and complements again. -/
theorem notWritesTheFifteenBitComplement : Obligations.NotWritesTheFifteenBitComplement := by
  intro d b x s hx
  have hfirst := exec_not_of_ok d hx
  have hread : resolve (.register d.val) ((s.setReg d (aluNot x)).advance 3).regs = .ok (aluNot x) := by
    rw [resolve_register_ok, getElem_regs_setReg_advance]
  refine ⟨aluNot_eq x ▸ hfirst, _, _, hfirst, exec_not_of_ok d hread, ?_⟩
  rw [getElem_regs_setReg_advance, aluNot_aluNot]

/-! ### The range of a result (42_alu.md R110) -/

section
variable {s t : State} {i : Instr} {a b c : Arg}

/-- A three-argument ALU instruction that succeeds has written its destination register, with a narrow value where its
operation yields narrow values only. -/
theorem binaryAlu_dest_narrow {op : Cell16 → Cell16 → Except ErrorKind Cell16}
    (hop : ∀ x y v, op x y = .ok v → Narrow v) (hdest : i.dest? = some a)
    (h : binaryAlu op a b c s = .next t) (hrun : t.status = .running) :
    ∃ d : Fin 8, i.dest? = some (.register d.val) ∧ Narrow t.regs[d] := by
  rcases binaryAlu_eq_next h with ⟨d, x, y, v, rfl, -, -, hv, rfl⟩ | ⟨k, rfl⟩
  · refine ⟨d, hdest, ?_⟩
    rw [getElem_regs_setReg_advance]
    exact hop x y v hv
  · cases hrun

/-- The case of an operation that cannot raise. -/
theorem binaryAlu_dest_narrow_of_total {f : Cell16 → Cell16 → Cell16} (hf : ∀ x y, Narrow (f x y))
    (hdest : i.dest? = some a) (h : binaryAlu (fun x y => .ok (f x y)) a b c s = .next t)
    (hrun : t.status = .running) :
    ∃ d : Fin 8, i.dest? = some (.register d.val) ∧ Narrow t.regs[d] :=
  binaryAlu_dest_narrow (fun x y _ hv => Except.ok.inj hv ▸ hf x y) hdest h hrun

theorem execNot_dest_narrow (hdest : i.dest? = some a) (h : execNot a b s = .next t)
    (hrun : t.status = .running) :
    ∃ d : Fin 8, i.dest? = some (.register d.val) ∧ Narrow t.regs[d] := by
  rcases execNot_eq_next h with ⟨d, x, rfl, -, rfl⟩ | ⟨k, rfl⟩
  · refine ⟨d, hdest, ?_⟩
    rw [getElem_regs_setReg_advance]
    exact narrow_aluNot x
  · cases hrun

end

/-- Settles O45: every ALU operation yields narrow values only, and an execution that wrote none has raised. -/
theorem aluResultsFitFifteenBits : Obligations.AluResultsFitFifteenBits := by
  intro i s t hop _ h hrun
  cases i with
  | equal | greaterThan =>
    exact binaryAlu_dest_narrow_of_total (fun _ _ => narrow_truthCell _) rfl h hrun
  | add | multiply | bitAnd | bitOr =>
    exact binaryAlu_dest_narrow_of_total (fun _ _ => narrow_reduce _) rfl h hrun
  | modulo => exact binaryAlu_dest_narrow (fun _ _ _ => narrow_of_aluModulo) rfl h hrun
  | not => exact execNot_dest_narrow rfl h hrun
  | halt | set | push | pop | jump | jumpIfTrue | jumpIfFalse | readMemory | writeMemory | call | ret
  | output | input | noop => simp [Instr.opcode] at hop

end Sys2Proof.Machine

namespace Sys2Proof.Machine

/-! PROOFS. The family of 43_control_transfer.md: what the jumps, Call and Return answer, Call followed by Return, and
a Call that pushes a wide return address. -/

/-! ### Jumps -/

theorem conditionHolds_iff_toNat (v : Cell16) : conditionHolds v = true ↔ v.toNat ≠ 0 :=
  (conditionHolds_iff v).trans (not_congr BitVec.toNat_inj.symm)

section
variable {a b : Arg} {v p : Cell16} {s : State}

theorem exec_jump_of_ok (h : resolve a s.regs = .ok p) : exec (.jump a) s = .next (s.jumpTo p) := by
  simp [exec, execJump, withValue_of_ok h]

/-- A resolved JumpIfTrue falls through on zero and jumps otherwise (43_control_transfer.md R131). -/
theorem exec_jumpIfTrue_of_ok (hv : resolve a s.regs = .ok v) (hp : resolve b s.regs = .ok p) :
    exec (.jumpIfTrue a b) s = if v.toNat ≠ 0 then .next (s.jumpTo p) else .next (s.advance 3) := by
  simp only [exec, execJumpIfTrue, withValue_of_ok hv, withValue_of_ok hp, conditionHolds_iff_toNat]

/-- A resolved JumpIfFalse jumps on zero and falls through otherwise (43_control_transfer.md R132). -/
theorem exec_jumpIfFalse_of_ok (hv : resolve a s.regs = .ok v) (hp : resolve b s.regs = .ok p) :
    exec (.jumpIfFalse a b) s = if v.toNat ≠ 0 then .next (s.advance 3) else .next (s.jumpTo p) := by
  simp only [exec, execJumpIfFalse, withValue_of_ok hv, withValue_of_ok hp, conditionHolds_iff_toNat]

end

/-- Settles O46: the transfer commits the resolved target and no other field. -/
theorem jumpCommitsItsTarget : Obligations.JumpCommitsItsTarget :=
  fun _ _ _ h => exec_jump_of_ok h

/-- Settles O47: one clause for each branch of the condition test. -/
theorem jumpIfTrueJumpsOnNonzero : Obligations.JumpIfTrueJumpsOnNonzero :=
  fun _ _ _ _ _ hv hp =>
    ⟨fun hnonzero => (exec_jumpIfTrue_of_ok hv hp).trans (if_pos hnonzero),
      fun hzero => (exec_jumpIfTrue_of_ok hv hp).trans (if_neg (not_not_intro hzero))⟩

/-- Settles O48: the branches of O47 exchanged. -/
theorem jumpIfFalseJumpsOnZero : Obligations.JumpIfFalseJumpsOnZero :=
  fun _ _ _ _ _ hv hp =>
    ⟨fun hzero => (exec_jumpIfFalse_of_ok hv hp).trans (if_neg (not_not_intro hzero)),
      fun hnonzero => (exec_jumpIfFalse_of_ok hv hp).trans (if_pos hnonzero)⟩

/-! ### Call and Return -/

section
variable {a : Arg} {v p : Cell16} {rest : List Cell16} {s : State}

theorem exec_call_of_le (h : resolve a s.regs = .ok p) (hle : s.pc.toNat + 2 ≤ 65535) :
    exec (.call a) s = .next ((s.pushCell (BitVec.ofNat 16 (s.pc.toNat + 2))).jumpTo p) :=
  (withValue_of_ok h _).trans (if_neg (Nat.not_lt.2 hle))

theorem exec_call_of_overflow (h : resolve a s.regs = .ok p) (hlt : 65535 < s.pc.toNat + 2) :
    exec (.call a) s = .next (s.raise .returnAddressOverflow) :=
  (withValue_of_ok h _).trans (if_pos hlt)

theorem exec_ret_of_cons (h : s.stack = v :: rest) :
    exec .ret s = .next ((s.setStack rest).jumpTo v) := by
  simp [exec, execReturn, h]

theorem exec_ret_of_nil (h : s.stack = []) : exec .ret s = .next (s.halt .machineHalted) := by
  simp [exec, execReturn, h]

/-- A return address that Call accepts fits the stack entry. -/
theorem toNat_returnAddress (hle : s.pc.toNat + 2 ≤ 65535) :
    (BitVec.ofNat 16 (s.pc.toNat + 2)).toNat = s.pc.toNat + 2 := by
  rw [BitVec.toNat_ofNat]
  omega

/-- The pc that Return makes of the pushed entry is the one after the Call. -/
theorem setWidth_returnAddress (hle : s.pc.toNat + 2 ≤ 65535) :
    (BitVec.ofNat 16 (s.pc.toNat + 2)).setWidth 17 = s.pc + 2 := by
  apply BitVec.eq_of_toNat_eq
  have hsum : (s.pc + 2).toNat = s.pc.toNat + 2 := toNat_pc_add (p := s.pc) (n := 2) (by omega)
  rw [BitVec.toNat_setWidth, toNat_returnAddress hle, hsum]
  omega

end

/-- Settles O49: one clause for each branch of the overflow check. -/
theorem callPushesTheReturnAddress : Obligations.CallPushesTheReturnAddress :=
  fun _ _ _ h => ⟨fun hle => ⟨_, toNat_returnAddress hle, exec_call_of_le h hle⟩,
    fun hlt => exec_call_of_overflow h hlt⟩

/-- Settles O50: one lemma for each form of the stack. -/
theorem returnPopsTheNewPcOrHalts : Obligations.ReturnPopsTheNewPcOrHalts :=
  fun _ => ⟨fun _ _ h => exec_ret_of_cons h, fun h => exec_ret_of_nil h⟩

/-- Settles O51: Return finds the return address on top of the old stack. -/
theorem callThenReturnResumesAfterTheCall : Obligations.CallThenReturnResumesAfterTheCall := by
  intro a p s h hle
  rw [execAll_cons (exec_call_of_le h hle), execAll_cons (exec_ret_of_cons rfl),
    ← setWidth_returnAddress hle]
  rfl

/-! ### A wide return address -/

theorem narrow_lookupCell (k : Nat) {cells : List (Nat × Cell16)} (h : ∀ c ∈ cells, Narrow c.2) :
    Narrow (lookupCell k cells) := by
  induction cells with
  | nil => exact Nat.zero_le _
  | cons c rest ih =>
    obtain ⟨hc, hrest⟩ := List.forall_mem_cons.1 h
    rw [lookupCell_cons]
    split
    · exact hc
    · exact ih hrest

/-- A memory whose listed cells are narrow holds no wide value: the others read 0. -/
theorem Memory.narrow_of_read {m : Memory} {k : Nat} {v : Cell16} (hcells : ∀ c ∈ m.cells, Narrow c.2)
    (h : m.read k = some v) : Narrow v := by
  unfold Memory.read at h
  split at h
  · cases h
    exact narrow_lookupCell k hcells
  · cases h

/-- The reset state moved to 32766, where the last two cells of its memory hold the words of `Call 0`. -/
def wideCallState : State := { State.reset with pc := 32766, mem := ⟨[(32766, 17)], 32768⟩ }

/-- Settles O60: Call pushes pc + 2, which is above 32767 from pc 32766 on; `wideCallState` has that pc. -/
theorem callCanPushAWideReturnAddress : Obligations.CallCanPushAWideReturnAddress := by
  constructor
  · intro s a p hrun hcall hp hlow hhigh
    have hle : s.pc.toNat + 2 ≤ 65535 := by omega
    have hstep := (step_of_instrAt hrun hcall).trans (exec_call_of_le hp hle)
    refine ⟨_, _, hstep, rfl, toNat_returnAddress hle, ?_⟩
    rw [Narrow, toNat_returnAddress hle]
    omega
  · have hinv : wideCallState.Inv := by decide
    have hregs : ∀ d : Fin 8, Narrow wideCallState.regs[d] := by decide
    have hstack : ∀ v ∈ wideCallState.stack, Narrow v := List.forall_mem_nil _
    have hcells : ∀ c ∈ wideCallState.mem.cells, Narrow c.2 := by decide
    have hfetch : wideCallState.fetchCells = [17, 0] := by decide
    have hcall : wideCallState.instrAt (.call (.literal 0)) := ⟨[], congrArg decode hfetch⟩
    exact ⟨wideCallState, .literal 0, 0, hinv, ⟨hregs, hstack⟩,
      fun _ _ => Memory.narrow_of_read hcells, rfl, hcall, rfl, by decide, by decide⟩

end Sys2Proof.Machine

namespace Sys2Proof.Machine

/-! PROOFS. The family of 44_memory_ops.md: what ReadMemory answers below the extent and beyond it. -/

section
variable {b : Arg} {addr v : Cell16} {s : State}

theorem exec_readMemory_of_some (d : Fin 8) (h : resolve b s.regs = .ok addr)
    (hread : s.mem.read addr.toNat = some v) :
    exec (.readMemory (.register d.val) b) s = .next ((s.setReg d v).advance 3) := by
  simp [exec, execReadMemory, withValue_of_ok h, hread]

theorem exec_readMemory_of_none (d : Fin 8) (h : resolve b s.regs = .ok addr)
    (hread : s.mem.read addr.toNat = none) :
    exec (.readMemory (.register d.val) b) s = .next (s.raise .memoryOutOfRange) := by
  simp [exec, execReadMemory, withValue_of_ok h, hread]

end

/-- Settles O52: one clause for each answer of the memory read, a cell below the extent and none at or beyond it. -/
theorem readMemoryCopiesTheCellOrRaisesMemoryOutOfRange :
    Obligations.ReadMemoryCopiesTheCellOrRaisesMemoryOutOfRange := by
  intro d b addr s h
  constructor
  · intro hlt
    obtain ⟨v, hread⟩ := Option.isSome_iff_exists.1 ((s.mem.read_isSome_iff addr.toNat).2 hlt)
    exact ⟨v, hread, exec_readMemory_of_some d h hread⟩
  · intro hle
    exact exec_readMemory_of_none d h ((s.mem.read_eq_none_iff addr.toNat).2 hle)

end Sys2Proof.Machine

namespace Sys2Proof.Machine

/-! PROOFS. The family of 45_system_io.md: what Halt, Noop, Output and Input answer, the frame of the input and output
records, and the independence of every step from what has been handed to the output collaborator. -/

/-! ### Halt, Noop, Output, Input -/

/-- Settles O55: the meaning is the status write alone and commits no pc. -/
theorem haltWritesOnlyTheStatus : Obligations.HaltWritesOnlyTheStatus :=
  fun _ => rfl

/-- Settles O56: the meaning is the advance alone, and the opcode word has no argument words after it. -/
theorem noopOnlyAdvancesThePc : Obligations.NoopOnlyAdvancesThePc :=
  fun _ => ⟨rfl, rfl⟩

theorem exec_output_of_ok {a : Arg} {v : Cell16} {s : State} (h : resolve a s.regs = .ok v) :
    exec (.output a) s = .next ((s.outChar v).advance 2) :=
  withValue_of_ok h _

/-- Settles O57: a resolved source reaches the output collaborator in every state. -/
theorem outputHandsOverTheSource : Obligations.OutputHandsOverTheSource :=
  fun _ _ _ h => exec_output_of_ok h

theorem exec_input_of_char {c : Value15} {s : State} (d : Fin 8) (h : s.nextAnswer = .char c) :
    exec (.input (.register d.val)) s =
      .next (((s.takeChar c).setReg d (c.setWidth 16)).advance 2) := by
  simp [exec, execInput, h]

theorem exec_input_of_fail {s : State} (d : Fin 8) (h : s.nextAnswer = .fail) :
    exec (.input (.register d.val)) s = .next (s.raise .ioError) := by
  simp [exec, execInput, h]

theorem State.nextAnswer_of_pending {s : State} {a : InAnswer} {rest : List InAnswer}
    (h : s.inPending = a :: rest) : s.nextAnswer = a := by
  simp [State.nextAnswer, h]

/-- Settles O58: one clause for each answer of the collaborator, and a pending answer comes before the free value. -/
theorem inputWritesTheCharacterOrRaisesIOError :
    Obligations.InputWritesTheCharacterOrRaisesIOError := by
  intro d s
  refine ⟨fun c h => ?_, exec_input_of_fail d, fun _ _ => State.nextAnswer_of_pending⟩
  rw [exec_input_of_char d h, BitVec.ofNat_toNat]
  rfl

/-! ### The frame of the input and output records -/

section
variable {s t : State} {i : Instr}

theorem Success.input_eq (h : Success s i t) (hne : ∀ a, i ≠ .input a) :
    t.inPending = s.inPending ∧ t.inTaken = s.inTaken := by
  cases h with
  | input c => exact absurd rfl (hne _)
  | setReg | pop | output | push | store | noop | jump | jumpIfTrue | jumpIfFalse | call | ret =>
    exact ⟨rfl, rfl⟩

theorem Success.outTrace_eq (h : Success s i t) (hne : ∀ a, i ≠ .output a) :
    t.outTrace = s.outTrace := by
  cases h with
  | output v => exact absurd rfl (hne _)
  | setReg | pop | input | push | store | noop | jump | jumpIfTrue | jumpIfFalse | call | ret => rfl

/-- A success appends to the two traces or leaves them (10_state.md R34). -/
theorem Success.traces_prefix (h : Success s i t) :
    s.inTaken <+: t.inTaken ∧ s.outTrace <+: t.outTrace := by
  rcases h.collaborators_cases with ⟨hout, htaken, -⟩ | ⟨htaken, -, v, hout⟩ | ⟨hout, -, c, htaken⟩
  · exact ⟨htaken ▸ List.prefix_rfl, hout ▸ List.prefix_rfl⟩
  · exact ⟨htaken ▸ List.prefix_rfl, hout ▸ List.prefix_append _ _⟩
  · exact ⟨htaken ▸ List.prefix_append _ _, hout ▸ List.prefix_rfl⟩

end

/-- Settles O25: an error or a halt writes the status alone, and a success is Input, Output or one that reaches
neither collaborator. -/
theorem onlyInputAndOutputReachTheCollaborators :
    Obligations.OnlyInputAndOutputReachTheCollaborators := by
  intro i s t hexec
  rcases exec_ends hexec with ⟨k, rfl⟩ | ⟨r, rfl⟩ | hsuccess
  · exact ⟨fun _ => ⟨rfl, rfl⟩, fun _ => rfl, List.prefix_rfl, List.prefix_rfl⟩
  · exact ⟨fun _ => ⟨rfl, rfl⟩, fun _ => rfl, List.prefix_rfl, List.prefix_rfl⟩
  · exact ⟨hsuccess.input_eq, hsuccess.outTrace_eq, hsuccess.traces_prefix⟩

/-! ### Noninterference of the output history

Putting a history in front of the output trace commutes with each operation on the state, so with every meaning
composed of them, so with the step. -/

/-- The state whose output collaborator was handed `history` before everything in its own trace. -/
def State.afterOutput (history : List Cell16) (s : State) : State :=
  { s with outTrace := history ++ s.outTrace }

/-- The same on the state an answer carries. -/
def Out.afterOutput (history : List Cell16) : Out → Out
  | .next s => .next (s.afterOutput history)
  | .fault r => .fault r
  | .refused r => .refused r

section
variable (history : List Cell16) (s : State)

@[simp] theorem State.afterOutput_regs : (s.afterOutput history).regs = s.regs := rfl
@[simp] theorem State.afterOutput_pc : (s.afterOutput history).pc = s.pc := rfl
@[simp] theorem State.afterOutput_stack : (s.afterOutput history).stack = s.stack := rfl
@[simp] theorem State.afterOutput_mem : (s.afterOutput history).mem = s.mem := rfl
@[simp] theorem State.afterOutput_status : (s.afterOutput history).status = s.status := rfl
@[simp] theorem State.afterOutput_nextAnswer : (s.afterOutput history).nextAnswer = s.nextAnswer := rfl
@[simp] theorem State.afterOutput_fetchCells : (s.afterOutput history).fetchCells = s.fetchCells := rfl

/-- The one operation that writes the trace appends at its other end. -/
theorem State.outChar_afterOutput (v : Cell16) :
    (s.afterOutput history).outChar v = (s.outChar v).afterOutput history := by
  simp [State.outChar, State.afterOutput]

theorem State.decodeFailed_afterOutput (e : DecodeError) :
    (s.afterOutput history).decodeFailed e = (s.decodeFailed e).afterOutput history := by
  cases e <;> rfl

variable {history s} {a : Arg}

theorem withDest_afterOutput {go go' : Fin 8 → Out}
    (h : ∀ d, go' d = Out.afterOutput history (go d)) :
    withDest a (s.afterOutput history) go' = Out.afterOutput history (withDest a s go) := by
  unfold withDest
  cases destIndex a with
  | ok d => exact h d
  | error k => rfl

/-- A source operand is resolved from the registers, which the history does not touch. -/
theorem withValue_afterOutput {go go' : Cell16 → Out}
    (h : ∀ v, go' v = Out.afterOutput history (go v)) :
    withValue a (s.afterOutput history) go' = Out.afterOutput history (withValue a s go) := by
  unfold withValue
  rw [State.afterOutput_regs]
  cases resolve a s.regs with
  | ok v => exact h v
  | error k => rfl

end

/-- No meaning reads the output trace. -/
theorem exec_afterOutput (history : List Cell16) (i : Instr) (s : State) :
    exec i (s.afterOutput history) = Out.afterOutput history (exec i s) := by
  cases i with
  | halt | noop => rfl
  | push | jump => exact withValue_afterOutput fun _ => rfl
  | output =>
    exact withValue_afterOutput fun v =>
      congrArg (fun t : State => Host.Outcome.next (t.advance 2)) (s.outChar_afterOutput history v)
  | set | not => exact withDest_afterOutput fun _ => withValue_afterOutput fun _ => rfl
  | equal | greaterThan | add | multiply | bitAnd | bitOr =>
    exact withDest_afterOutput fun _ => withValue_afterOutput fun _ => withValue_afterOutput fun _ => rfl
  | modulo =>
    exact withDest_afterOutput fun _ => withValue_afterOutput fun x => withValue_afterOutput fun y => by
      cases aluModulo x y <;> rfl
  | writeMemory => exact withValue_afterOutput fun _ => withValue_afterOutput fun _ => rfl
  | jumpIfTrue | jumpIfFalse =>
    exact withValue_afterOutput fun v => withValue_afterOutput fun _ => by
      cases conditionHolds v <;> rfl
  | pop =>
    exact withDest_afterOutput fun _ => by
      rw [State.afterOutput_stack]
      cases s.stack <;> rfl
  | input =>
    exact withDest_afterOutput fun _ => by
      rw [State.afterOutput_nextAnswer]
      cases s.nextAnswer <;> rfl
  | readMemory =>
    exact withDest_afterOutput fun _ => withValue_afterOutput fun addr => by
      rw [State.afterOutput_mem]
      cases s.mem.read addr.toNat <;> rfl
  | call =>
    exact withValue_afterOutput fun _ => by
      rw [State.afterOutput_pc]
      split <;> rfl
  | ret =>
    simp only [exec, execReturn, State.afterOutput_stack]
    cases s.stack <;> rfl

/-- Neither the status test nor the fetch and decode of a step reads the output trace. -/
theorem step_afterOutput (history : List Cell16) (s : State) :
    step (s.afterOutput history) = Out.afterOutput history (step s) := by
  unfold step
  rw [State.afterOutput_status, State.afterOutput_fetchCells]
  cases s.status with
  | running =>
    cases decode s.fetchCells with
    | ok p => exact exec_afterOutput history p.1 s
    | error e => exact congrArg Host.Outcome.next (s.decodeFailed_afterOutput history e)
  | halted | errored => rfl

/-- Settles O26: the history put in front commutes with the step. -/
theorem outputHistoryNeverInfluencesTheMachine : Obligations.OutputHistoryNeverInfluencesTheMachine :=
  fun s _ history h =>
    (step_afterOutput history s).trans (congrArg (Out.afterOutput history) h)

end Sys2Proof.Machine

namespace Sys2Proof

/-! PROOFS. The family of 60_exceptions.md: which argument word makes a decode fail, every way a step can stop
(`State.StopsIn`), and the exact causes of each error and each halt that follow from it. -/

/-! ### The argument word that makes a decode fail -/

theorem arityTable_le {op n : Nat} (h : arityTable[op]? = some n) : n ≤ 3 := by
  have hall : ∀ m ∈ arityTable, m ≤ 3 := by decide
  exact hall n (List.mem_of_getElem? h)

theorem encodeArg_le_of_wf {a : Arg} (h : a.wf = true) : (encodeArg a).toNat ≤ 32775 := by
  by_contra hgt
  have hinvalid : decodeArg (encodeArg a) = .error .invalidArgument := decodeArg_invalid (by omega)
  rw [decodeArg_encodeArg h] at hinvalid
  cases hinvalid

/-- The cell at an argument word's address ends the fetch with `e`: it is missing or invalid (40_step_cycle.md R83).
`ArgsFail` says this of the first such word. -/
def ArgWordFails (cell : Option Cell16) (e : DecodeError) : Prop :=
  (cell = none ∧ e = .missingArgument) ∨
    ∃ v : Cell16, cell = some v ∧ 32776 ≤ v.toNat ∧ e = .invalidArgument

section
variable {n m op : Nat} {ws rest : List Cell16} {i : Instr} {cell : Option Cell16} {e e' : DecodeError}

theorem ArgWordFails.not_valid (h : ArgWordFails cell e) : ¬ ∃ v : Cell16, cell = some v ∧ v.toNat ≤ 32775 := by
  rintro ⟨v, rfl, hle⟩
  rcases h with ⟨hnone, -⟩ | ⟨w, hw, hgt, -⟩
  · cases hnone
  · cases hw
    omega

theorem ArgWordFails.error_eq (h : ArgWordFails cell e) (h' : ArgWordFails cell e') : e = e' := by
  rcases h with ⟨rfl, rfl⟩ | ⟨v, rfl, -, rfl⟩ <;> rcases h' with ⟨hcell, rfl⟩ | ⟨v', hcell, -, rfl⟩
  · rfl
  · cases hcell
  · cases hcell
  · rfl

/-- The first argument word that fails lies behind valid ones only, so there is one such word and one such error. -/
theorem ArgsFail.error_eq (h : ArgsFail n ws e) (h' : ArgsFail m ws e') : e = e' := by
  obtain ⟨k, -, hvalid, hfails⟩ := h
  obtain ⟨k', -, hvalid', hfails'⟩ := h'
  rcases lt_trichotomy k k' with hlt | rfl | hlt
  · exact absurd (hvalid' k hlt) (ArgWordFails.not_valid hfails)
  · exact ArgWordFails.error_eq hfails hfails'
  · exact absurd (hvalid k' hlt) (ArgWordFails.not_valid hfails')

/-- The argument words of an instruction that decodes are all there and valid. -/
theorem ArgsFail.not_wordsOf (h : ArgsFail i.arity ws e) : ¬ WordsOf i op ws rest := by
  rintro ⟨-, hwf, rfl⟩
  obtain ⟨k, hk, -, hfails⟩ := h
  rw [i.arity_eq_length_args] at hk
  have hword : (i.args.map encodeArg ++ rest)[k]? = some (encodeArg i.args[k]) := by
    rw [List.getElem?_append_left (by simpa using hk), List.getElem?_map, List.getElem?_eq_getElem hk]
    rfl
  have hle := encodeArg_le_of_wf (List.all_eq_true.1 hwf _ (List.getElem_mem hk))
  exact ArgWordFails.not_valid hfails ⟨_, hword, hle⟩

/-- The first argument word that fails decides how the decode of a legal opcode word fails (40_step_cycle.md R83). -/
theorem ArgsFail.decodeBody_eq (h : ArgsFail n ws e) (hn : arityTable[op]? = some n) :
    decodeBody op ws = .error e := by
  cases hd : decodeBody op ws with
  | ok p =>
    have hwords : WordsOf p.1 op ws p.2 := decodeBody_eq_ok hd
    have ⟨hop, _⟩ := hwords
    have harity : p.1.arity = n := by
      rw [← hop, p.1.arityTable_opcode] at hn
      exact Option.some_inj.1 hn
    exact absurd hwords (harity ▸ h).not_wordsOf
  | error e' =>
    rcases decodeBody_eq_error hd with ⟨hop, -⟩ | ⟨m, -, hfail⟩
    · rw [List.getElem?_eq_none (show arityTable.length ≤ op from hop)] at hn
      cases hn
    · rw [hfail.error_eq h]

end

/-- The destination is one of the arguments (30_encoding.md R67). -/
theorem Instr.dest?_mem_args {i : Instr} {a : Arg} (h : i.dest? = some a) : a ∈ i.args := by
  cases i <;> simp_all [Instr.dest?, Instr.args]

end Sys2Proof

namespace Sys2Proof.Machine

/-! ### The fetch at pc -/

section
variable {s : State} {i : Instr} {a : Arg}

theorem fetchCells_of_extent_le (h : s.mem.extent ≤ s.pc.toNat) : s.fetchCells = [] := by
  rw [← List.head?_eq_none_iff, List.head?_eq_getElem?, fetchCells_getElem? s 0 (by omega)]
  exact (s.mem.read_eq_none_iff _).2 h

/-- The argument words of a legal opcode word are the cells from pc + 1 on (40_step_cycle.md R83). -/
theorem argWord_getElem? {w : Cell16} {ws : List Cell16} {op n k : Nat} (h : s.fetchCells = w :: ws)
    (hn : arityTable[op]? = some n) (hk : k < n) : ws[k]? = s.mem.read (s.pc.toNat + 1 + k) := by
  have hthree := arityTable_le hn
  rw [← List.getElem?_cons_succ (a := w), ← h, fetchCells_getElem? s (k + 1) (by omega)]
  congr 1
  omega

/-- Phase A ends at an argument word that it reaches and that fails (40_step_cycle.md R83). -/
theorem decode_of_reachesArgument {k : Nat} {e : DecodeError} (h : s.reachesArgument k)
    (hfails : ArgWordFails (s.mem.read (s.pc.toNat + 1 + k)) e) : decode s.fetchCells = .error e := by
  obtain ⟨w, n, hread, hn, hk, hvalid⟩ := h
  obtain ⟨ws, hfetch⟩ := fetchCells_of_read hread
  have hfail : ArgsFail n ws e :=
    ⟨k, hk, fun j hj => argWord_getElem? hfetch hn (hj.trans hk) ▸ hvalid j hj,
      argWord_getElem? hfetch hn hk ▸ hfails⟩
  rw [hfetch]
  exact hfail.decodeBody_eq hn

theorem State.instrAt.arg_wf (h : s.instrAt i) (ha : a ∈ i.args) : a.wf = true := by
  obtain ⟨rest, hdec⟩ := h
  obtain ⟨w, args, -, -, hwf, -⟩ := decode_eq_ok hdec
  exact List.all_eq_true.1 hwf a ha

/-- Every source of the instruction at pc has a value (40_step_cycle.md R88). -/
theorem State.instrAt.resolves (h : s.instrAt i) (ha : a ∈ i.args) : ∃ v, resolve a s.regs = .ok v :=
  resolve_of_wf (h.arg_wf ha) s.regs

/-- The destination index of the instruction at pc names one of the eight registers. -/
theorem State.instrAt.register_eq {r : Nat} (h : s.instrAt i) (hdest : i.dest? = some (.register r)) :
    ∃ d : Fin 8, r = d.val := by
  have hr : r ≤ 7 := by simpa [Arg.wf] using h.arg_wf (Instr.dest?_mem_args hdest)
  exact ⟨⟨r, by omega⟩, rfl⟩

theorem State.instrAt.dest_eq_register (h : s.instrAt i) (hlit : ∀ w, i.dest? ≠ some (.literal w))
    (ha : i.dest? = some a) : ∃ d : Fin 8, a = .register d.val := by
  cases a with
  | literal w => exact absurd ha (hlit w)
  | register r =>
    obtain ⟨d, rfl⟩ := h.register_eq ha
    exact ⟨d, rfl⟩

end

/-! ### Every way a step can stop -/

/-- The causes for which a step from `s`, which is running, stops in a status (60_exceptions.md R175 to R184).
`State.StopsIn.step_eq` and `step_stops_or_goes_on` tie it to the step. -/
inductive State.StopsIn (s : State) : Status → Prop
  | noMoreInstructions (extent : s.mem.extent ≤ s.pc.toNat) : s.StopsIn (.halted .noMoreInstructions)
  | invalidOpcode {w : Cell16} (read : s.mem.read s.pc.toNat = some w) (illegal : 22 ≤ w.toNat) :
      s.StopsIn (.errored .invalidOpcode)
  | missingArgument {k : Nat} (reached : s.reachesArgument k)
      (missing : s.mem.read (s.pc.toNat + 1 + k) = none) : s.StopsIn (.errored .memoryOutOfRange)
  | invalidArgument {k : Nat} {v : Cell16} (reached : s.reachesArgument k)
      (read : s.mem.read (s.pc.toNat + 1 + k) = some v) (invalid : 32776 ≤ v.toNat) :
      s.StopsIn (.errored .invalidArgument)
  | literalDest {i : Instr} {w : Cell16} (instr : s.instrAt i) (dest : i.dest? = some (.literal w)) :
      s.StopsIn (.errored .invalidRegister)
  | pop {d : Nat} (instr : s.instrAt (.pop (.register d))) (stack : s.stack = []) :
      s.StopsIn (.errored .stackExhausted)
  | modulo {d : Nat} {b c : Arg} (instr : s.instrAt (.modulo (.register d) b c))
      (divisor : resolve c s.regs = .ok 0) : s.StopsIn (.errored .arithmeticError)
  | readMemory {d : Nat} {b : Arg} {addr : Cell16} (instr : s.instrAt (.readMemory (.register d) b))
      (address : resolve b s.regs = .ok addr) (beyond : s.mem.extent ≤ addr.toNat) :
      s.StopsIn (.errored .memoryOutOfRange)
  | input {d : Nat} (instr : s.instrAt (.input (.register d))) (answer : s.nextAnswer = .fail) :
      s.StopsIn (.errored .ioError)
  | call {a : Arg} (instr : s.instrAt (.call a)) (overflow : 65535 < s.pc.toNat + 2) :
      s.StopsIn (.errored .returnAddressOverflow)
  | halt (instr : s.instrAt .halt) : s.StopsIn (.halted .machineHalted)
  | ret (instr : s.instrAt .ret) (stack : s.stack = []) : s.StopsIn (.halted .machineHalted)

section
variable {s t : State} {i : Instr} {st : Status}

/-- Where a cause is given, the step writes its status and nothing else (60_exceptions.md R172, R173). -/
theorem State.StopsIn.step_eq (h : s.StopsIn st) (hrun : s.status = .running) :
    step s = .next { s with status := st } := by
  cases h with
  | noMoreInstructions extent =>
    exact step_of_decode_error hrun (congrArg decode (fetchCells_of_extent_le extent))
  | invalidOpcode read illegal => exact (opcodeWordsAbove21AreIllegal _ []).2 s hrun read illegal
  | missingArgument reached missing =>
    exact step_of_decode_error hrun (decode_of_reachesArgument reached (.inl ⟨missing, rfl⟩))
  | invalidArgument reached read invalid =>
    exact step_of_decode_error hrun (decode_of_reachesArgument reached (.inr ⟨_, read, invalid, rfl⟩))
  | literalDest instr dest =>
    exact (step_of_instrAt hrun instr).trans (literalDestinationRaisesInvalidRegister _ _ s dest)
  | pop instr stack =>
    obtain ⟨d, rfl⟩ := instr.register_eq rfl
    exact (step_of_instrAt hrun instr).trans (exec_pop_of_nil d stack)
  | @modulo _ b _ instr divisor =>
    obtain ⟨d, rfl⟩ := instr.register_eq rfl
    obtain ⟨x, hx⟩ := instr.resolves (a := b) (by simp [Instr.args])
    exact (step_of_instrAt hrun instr).trans
      (binaryAlu_of_error d hx divisor (aluModulo_of_eq_zero rfl))
  | readMemory instr address beyond =>
    obtain ⟨d, rfl⟩ := instr.register_eq rfl
    exact (step_of_instrAt hrun instr).trans
      (exec_readMemory_of_none d address ((s.mem.read_eq_none_iff _).2 beyond))
  | input instr answer =>
    obtain ⟨d, rfl⟩ := instr.register_eq rfl
    exact (step_of_instrAt hrun instr).trans (exec_input_of_fail d answer)
  | @call a instr overflow =>
    obtain ⟨p, hp⟩ := instr.resolves (a := a) (by simp [Instr.args])
    exact (step_of_instrAt hrun instr).trans (exec_call_of_overflow hp overflow)
  | halt instr => exact step_of_instrAt hrun instr
  | ret instr stack => exact (step_of_instrAt hrun instr).trans (exec_ret_of_nil stack)

/-- A failed decode has one of the causes (40_step_cycle.md R81 to R83). -/
theorem stopsIn_of_decode_error {e : DecodeError} (h : decode s.fetchCells = .error e) :
    s.StopsIn (s.decodeFailed e).status := by
  cases hread : s.mem.read s.pc.toNat with
  | none =>
    have hextent := (s.mem.read_eq_none_iff _).1 hread
    rw [fetchCells_of_extent_le hextent] at h
    cases h
    exact .noMoreInstructions hextent
  | some w =>
    obtain ⟨ws, hfetch⟩ := fetchCells_of_read hread
    rw [hfetch] at h
    rcases decodeBody_eq_error h with ⟨hw, rfl⟩ | ⟨n, hn, k, hk, hvalid, hbad⟩
    · exact .invalidOpcode hread hw
    · have hreached : s.reachesArgument k :=
        ⟨w, n, hread, hn, hk, fun j hj => argWord_getElem? hfetch hn (hj.trans hk) ▸ hvalid j hj⟩
      rw [argWord_getElem? hfetch hn hk] at hbad
      rcases hbad with ⟨hmissing, rfl⟩ | ⟨v, hv, hinvalid, rfl⟩
      · exact .missingArgument hreached hmissing
      · exact .invalidArgument hreached hv hinvalid

/-- The instruction at pc has one of the causes, or succeeds. -/
theorem exec_stops_or_goes_on (hi : s.instrAt i) :
    (∃ st, s.StopsIn st) ∨ ∃ t, exec i s = .next t ∧ t.status = s.status := by
  by_cases hlit : ∃ w, i.dest? = some (.literal w)
  · obtain ⟨w, hdest⟩ := hlit
    exact .inl ⟨_, .literalDest hi hdest⟩
  have hreg {a : Arg} (ha : i.dest? = some a) : ∃ d : Fin 8, a = .register d.val :=
    hi.dest_eq_register (not_exists.1 hlit) ha
  have hval (a : Arg) (ha : a ∈ i.args) : ∃ v, resolve a s.regs = .ok v := hi.resolves ha
  cases i with
  | halt => exact .inl ⟨_, .halt hi⟩
  | noop => exact .inr ⟨_, rfl, rfl⟩
  | set a b =>
    obtain ⟨d, rfl⟩ := hreg rfl
    obtain ⟨v, hv⟩ := hval b (by simp [Instr.args])
    exact .inr ⟨_, exec_set_of_ok d hv, rfl⟩
  | not a b =>
    obtain ⟨d, rfl⟩ := hreg rfl
    obtain ⟨v, hv⟩ := hval b (by simp [Instr.args])
    exact .inr ⟨_, exec_not_of_ok d hv, rfl⟩
  | push a =>
    obtain ⟨v, hv⟩ := hval a (by simp [Instr.args])
    exact .inr ⟨_, exec_push_of_ok hv, rfl⟩
  | output a =>
    obtain ⟨v, hv⟩ := hval a (by simp [Instr.args])
    exact .inr ⟨_, exec_output_of_ok hv, rfl⟩
  | jump a =>
    obtain ⟨p, hp⟩ := hval a (by simp [Instr.args])
    exact .inr ⟨_, exec_jump_of_ok hp, rfl⟩
  | jumpIfTrue a b =>
    obtain ⟨v, hv⟩ := hval a (by simp [Instr.args])
    obtain ⟨p, hp⟩ := hval b (by simp [Instr.args])
    rw [exec_jumpIfTrue_of_ok hv hp]
    split <;> exact .inr ⟨_, rfl, rfl⟩
  | jumpIfFalse a b =>
    obtain ⟨v, hv⟩ := hval a (by simp [Instr.args])
    obtain ⟨p, hp⟩ := hval b (by simp [Instr.args])
    rw [exec_jumpIfFalse_of_ok hv hp]
    split <;> exact .inr ⟨_, rfl, rfl⟩
  | writeMemory a b =>
    obtain ⟨addr, haddr⟩ := hval a (by simp [Instr.args])
    obtain ⟨v, hv⟩ := hval b (by simp [Instr.args])
    exact .inr ⟨_, exec_writeMemory_of_ok haddr hv, rfl⟩
  | equal a b c | greaterThan a b c | add a b c | multiply a b c | bitAnd a b c | bitOr a b c =>
    obtain ⟨d, rfl⟩ := hreg rfl
    obtain ⟨x, hx⟩ := hval b (by simp [Instr.args])
    obtain ⟨y, hy⟩ := hval c (by simp [Instr.args])
    exact .inr ⟨_, binaryAlu_of_total _ d hx hy, rfl⟩
  | modulo a b c =>
    obtain ⟨d, rfl⟩ := hreg rfl
    obtain ⟨x, hx⟩ := hval b (by simp [Instr.args])
    obtain ⟨y, hy⟩ := hval c (by simp [Instr.args])
    by_cases hzero : y.toNat = 0
    · obtain rfl : y = 0 := BitVec.toNat_inj.1 hzero
      exact .inl ⟨_, .modulo hi hy⟩
    · exact .inr ⟨_, binaryAlu_of_ok hx hy (aluModulo_of_ne_zero hzero), rfl⟩
  | readMemory a b =>
    obtain ⟨d, rfl⟩ := hreg rfl
    obtain ⟨addr, haddr⟩ := hval b (by simp [Instr.args])
    cases hread : s.mem.read addr.toNat with
    | none => exact .inl ⟨_, .readMemory hi haddr ((s.mem.read_eq_none_iff _).1 hread)⟩
    | some v => exact .inr ⟨_, exec_readMemory_of_some d haddr hread, rfl⟩
  | pop a =>
    obtain ⟨d, rfl⟩ := hreg rfl
    cases hstack : s.stack with
    | nil => exact .inl ⟨_, .pop hi hstack⟩
    | cons v rest => exact .inr ⟨_, exec_pop_of_cons d hstack, rfl⟩
  | input a =>
    obtain ⟨d, rfl⟩ := hreg rfl
    cases hanswer : s.nextAnswer with
    | fail => exact .inl ⟨_, .input hi hanswer⟩
    | char c => exact .inr ⟨_, exec_input_of_char d hanswer, rfl⟩
  | call a =>
    obtain ⟨p, hp⟩ := hval a (by simp [Instr.args])
    by_cases hle : s.pc.toNat + 2 ≤ 65535
    · exact .inr ⟨_, exec_call_of_le hp hle, rfl⟩
    · exact .inl ⟨_, .call hi (Nat.lt_of_not_le hle)⟩
  | ret =>
    cases hstack : s.stack with
    | nil => exact .inl ⟨_, .ret hi hstack⟩
    | cons v rest => exact .inr ⟨_, exec_ret_of_cons hstack, rfl⟩

/-- A step from Running has one of the causes, or leaves the machine Running. -/
theorem step_stops_or_goes_on (hrun : s.status = .running) (h : step s = .next t) :
    (∃ st, s.StopsIn st) ∨ t.status = .running := by
  rcases step_cases h with ⟨hover, -⟩ | ⟨e, -, hdec, -⟩ | ⟨i, rest, -, hdec, ho⟩
  · exact absurd hrun hover
  · exact .inl ⟨_, stopsIn_of_decode_error hdec⟩
  · refine (exec_stops_or_goes_on ⟨rest, hdec⟩).imp_right fun ⟨u, hexec, hu⟩ => ?_
    cases ho.trans hexec
    exact hu.trans hrun

/-- A step from Running ends in a terminal status exactly if it has a cause for that status. -/
theorem step_status_eq_iff (hrun : s.status = .running) (h : step s = .next t) (hst : st ≠ .running) :
    t.status = st ↔ s.StopsIn st := by
  constructor
  · rintro rfl
    rcases step_stops_or_goes_on hrun h with ⟨st, hstop⟩ | hgoes
    · cases h.symm.trans (hstop.step_eq hrun)
      exact hstop
    · exact absurd hgoes hst
  · intro hstop
    cases h.symm.trans (hstop.step_eq hrun)
    rfl

end

/-! ### The causes of each status -/

section
variable {s : State}

theorem stopsIn_noMoreInstructions_iff :
    s.StopsIn (.halted .noMoreInstructions) ↔ s.mem.extent ≤ s.pc.toNat := by
  refine ⟨fun h => ?_, .noMoreInstructions⟩
  cases h with
  | noMoreInstructions extent => exact extent

theorem stopsIn_machineHalted_iff :
    s.StopsIn (.halted .machineHalted) ↔ s.instrAt .halt ∨ (s.instrAt .ret ∧ s.stack = []) := by
  constructor
  · intro h
    cases h with
    | halt instr => exact .inl instr
    | ret instr stack => exact .inr ⟨instr, stack⟩
  · rintro (instr | ⟨instr, stack⟩)
    · exact .halt instr
    · exact .ret instr stack

theorem stopsIn_invalidOpcode_iff : s.StopsIn (.errored .invalidOpcode) ↔
    ∃ w : Cell16, s.mem.read s.pc.toNat = some w ∧ 22 ≤ w.toNat := by
  refine ⟨fun h => ?_, fun ⟨_, read, illegal⟩ => .invalidOpcode read illegal⟩
  cases h with
  | invalidOpcode read illegal => exact ⟨_, read, illegal⟩

theorem stopsIn_invalidArgument_iff : s.StopsIn (.errored .invalidArgument) ↔
    ∃ (k : Nat) (v : Cell16), s.reachesArgument k ∧
      s.mem.read (s.pc.toNat + 1 + k) = some v ∧ 32776 ≤ v.toNat := by
  refine ⟨fun h => ?_, fun ⟨_, _, reached, read, invalid⟩ => .invalidArgument reached read invalid⟩
  cases h with
  | invalidArgument reached read invalid => exact ⟨_, _, reached, read, invalid⟩

theorem stopsIn_memoryOutOfRange_iff : s.StopsIn (.errored .memoryOutOfRange) ↔
    (∃ k, s.reachesArgument k ∧ s.mem.read (s.pc.toNat + 1 + k) = none) ∨
      ∃ d b addr, s.instrAt (.readMemory (.register d) b) ∧ resolve b s.regs = .ok addr ∧
        s.mem.extent ≤ addr.toNat := by
  constructor
  · intro h
    cases h with
    | missingArgument reached missing => exact .inl ⟨_, reached, missing⟩
    | readMemory instr address beyond => exact .inr ⟨_, _, _, instr, address, beyond⟩
  · rintro (⟨k, reached, missing⟩ | ⟨d, b, addr, instr, address, beyond⟩)
    · exact .missingArgument reached missing
    · exact .readMemory instr address beyond

theorem not_stopsIn_invalidLiteral : ¬ s.StopsIn (.errored .invalidLiteral) := nofun

theorem stopsIn_invalidRegister_iff : s.StopsIn (.errored .invalidRegister) ↔
    ∃ i w, s.instrAt i ∧ i.dest? = some (.literal w) := by
  refine ⟨fun h => ?_, fun ⟨_, _, instr, dest⟩ => .literalDest instr dest⟩
  cases h with
  | literalDest instr dest => exact ⟨_, _, instr, dest⟩

theorem stopsIn_stackExhausted_iff : s.StopsIn (.errored .stackExhausted) ↔
    ∃ d, s.instrAt (.pop (.register d)) ∧ s.stack = [] := by
  refine ⟨fun h => ?_, fun ⟨_, instr, stack⟩ => .pop instr stack⟩
  cases h with
  | pop instr stack => exact ⟨_, instr, stack⟩

theorem stopsIn_arithmeticError_iff : s.StopsIn (.errored .arithmeticError) ↔
    ∃ d b c, s.instrAt (.modulo (.register d) b c) ∧ resolve c s.regs = .ok 0 := by
  refine ⟨fun h => ?_, fun ⟨_, _, _, instr, divisor⟩ => .modulo instr divisor⟩
  cases h with
  | modulo instr divisor => exact ⟨_, _, _, instr, divisor⟩

theorem stopsIn_ioError_iff : s.StopsIn (.errored .ioError) ↔
    ∃ d, s.instrAt (.input (.register d)) ∧ s.nextAnswer = .fail := by
  refine ⟨fun h => ?_, fun ⟨_, instr, answer⟩ => .input instr answer⟩
  cases h with
  | input instr answer => exact ⟨_, instr, answer⟩

/-- The two words of a Call lie in a memory of at most 65536 cells, so only at 65534 is its return address too
large. -/
theorem stopsIn_returnAddressOverflow_iff (hs : s.Inv) : s.StopsIn (.errored .returnAddressOverflow) ↔
    ∃ a, s.instrAt (.call a) ∧ s.pc.toNat = 65534 := by
  constructor
  · intro h
    cases h with
    | call instr overflow =>
      obtain ⟨⟨-, -, hextent⟩, -⟩ := hs
      have hwords : s.pc.toNat + 1 + 1 ≤ 65536 := instr.words_le_extent.trans hextent
      exact ⟨_, instr, by omega⟩
  · rintro ⟨a, instr, hpc⟩
    exact .call instr (by omega)

end

/-! ### The statements -/

/-- Settles O19: each of the failing tests is a cause for which the step stops. -/
theorem firstFailingTestDecidesTheStep : Obligations.FirstFailingTestDecidesTheStep := by
  intro s hrun
  refine ⟨fun extent => ?_, fun w read illegal => ?_, fun w n k read harity hk hvalid => ?_,
    fun i w instr dest => ?_⟩
  · exact (State.StopsIn.noMoreInstructions extent).step_eq hrun
  · exact (State.StopsIn.invalidOpcode read illegal).step_eq hrun
  · have reached : s.reachesArgument k := ⟨w, n, read, harity, hk, hvalid⟩
    exact ⟨fun missing => (State.StopsIn.missingArgument reached missing).step_eq hrun,
      fun v hv invalid => (State.StopsIn.invalidArgument reached hv invalid).step_eq hrun⟩
  · exact (State.StopsIn.literalDest instr dest).step_eq hrun

/-- A WriteMemory at pc succeeds (20_memory.md R43). -/
theorem step_writeMemory_running {s t : State} {a b : Arg} (hrun : s.status = .running)
    (hi : s.instrAt (.writeMemory a b)) (h : step s = .next t) : t.status = .running := by
  obtain ⟨addr, haddr⟩ := hi.resolves (a := a) (by simp [Instr.args])
  obtain ⟨v, hv⟩ := hi.resolves (a := b) (by simp [Instr.args])
  rw [step_of_instrAt hrun hi, exec_writeMemory_of_ok haddr hv] at h
  cases h
  exact hrun

/-- Settles O27: the step ends in an error exactly if `State.StopsIn` has a cause for it. -/
theorem errorKindsComeFromTheirInstructionsOnly :
    Obligations.ErrorKindsComeFromTheirInstructionsOnly := by
  intro s t hs hrun hstep
  have herrored (k : ErrorKind) : t.status = .errored k ↔ s.StopsIn (.errored k) :=
    step_status_eq_iff hrun hstep (by simp)
  refine ⟨(herrored _).trans stopsIn_invalidOpcode_iff, (herrored _).trans stopsIn_invalidArgument_iff,
    (herrored _).trans stopsIn_memoryOutOfRange_iff, ?_,
    (herrored _).not.2 not_stopsIn_invalidLiteral, (herrored _).trans stopsIn_invalidRegister_iff,
    (herrored _).trans stopsIn_stackExhausted_iff, (herrored _).trans stopsIn_arithmeticError_iff,
    (herrored _).trans stopsIn_ioError_iff, (herrored _).trans (stopsIn_returnAddressOverflow_iff hs)⟩
  rintro (extent | ⟨a, b, hi⟩)
  · have hhalted : t.status = .halted .noMoreInstructions :=
      (step_status_eq_iff hrun hstep (by simp)).2 (.noMoreInstructions extent)
    simp [hhalted]
  · simp [step_writeMemory_running hrun hi hstep]

/-- Settles O28: the step ends in a halt exactly if it has a cause for it. -/
theorem haltReasonsAndTheirCauses : Obligations.HaltReasonsAndTheirCauses := by
  intro s t hrun hstep
  exact ⟨(step_status_eq_iff hrun hstep (by simp)).trans stopsIn_noMoreInstructions_iff,
    (step_status_eq_iff hrun hstep (by simp)).trans stopsIn_machineHalted_iff⟩

/-- Settles O30: one equation for each status value. -/
theorem runResultAndStatusCodes : Obligations.RunResultAndStatusCodes :=
  ⟨fun _ => rfl, fun _ => rfl, rfl, rfl, rfl, rfl, rfl, rfl, rfl, rfl, rfl, rfl, rfl, rfl, rfl⟩

end Sys2Proof.Machine

namespace Sys2Proof.Machine

/-! PROOFS. The family of 70_reset_and_hazards.md: the words of an image byte stream, the empty image and the image
that is too long. -/

/-! ### The words of a byte stream -/

/-- A trailing odd byte is no word (70_reset_and_hazards.md R196 with D21). -/
theorem length_imageWords (bytes : List (BitVec 8)) : (imageWords bytes).length = bytes.length / 2 := by
  induction bytes using imageWords.induct with
  | case1 lo hi rest ih =>
    simp only [imageWords, List.length_cons, ih]
    omega
  | case2 _ => simp [imageWords]
  | case3 => rfl

/-- Word `k` holds bytes `2k` and `2k+1`, the low byte first. -/
theorem getElem?_imageWords {bytes : List (BitVec 8)} {k : Nat} {lo hi : BitVec 8}
    (hlo : bytes[2 * k]? = some lo) (hhi : bytes[2 * k + 1]? = some hi) :
    (imageWords bytes)[k]? = some (BitVec.ofNat 16 (lo.toNat + 256 * hi.toNat)) := by
  induction bytes using imageWords.induct generalizing k with
  | case1 lo₀ hi₀ rest ih =>
    cases k with
    | zero =>
      cases hlo
      cases hhi
      rfl
    | succ k => exact ih hlo hhi
  | case2 _ => simp at hhi
  | case3 => simp at hhi

/-- Settles O2: construction lays word `k` in cell `k`, and the words are the pairs of bytes. -/
theorem imageBytesAreLittleEndianWords : Obligations.ImageBytesAreLittleEndianWords := by
  intro bytes hbytes
  have hlen := length_imageWords bytes
  refine ⟨_, construct_of_length_le (hlen.trans_le hbytes), hlen, fun k lo hi hlo hhi => ?_⟩
  exact (Memory.read_ofImage _ k).trans (getElem?_imageWords hlo hhi)

/-! ### The empty image and the image that is too long -/

theorem construct_of_length_gt {image : List Cell16} (h : 65536 < image.length) :
    construct image = .error .imageTooLong :=
  if_neg (Nat.not_le_of_lt h)

/-- Settles O3: the empty image leaves no cell at pc 0, so the first step finds no opcode word (40_step_cycle.md R81). -/
theorem emptyImageStopsCleanlyAndLongImageIsRefused :
    Obligations.EmptyImageStopsCleanlyAndLongImageIsRefused := by
  have hextent : State.reset.mem.extent ≤ State.reset.pc.toNat := Nat.zero_le _
  exact ⟨construct_of_length_le (image := []) (Nat.zero_le _),
    (State.StopsIn.noMoreInstructions hextent).step_eq rfl, fun _ => construct_of_length_gt⟩

end Sys2Proof.Machine
